-- ==== Sys2Proof/Word.lean ====
section
/-! DEFINITION. The word types of the block (00_scope.md R10, R11; 30_encoding.md R80). -/

namespace Sys2Proof

/-- A payload byte or a character code: `BYTE_W` = `CHAR_W` = 8 (R10, R11). -/
abbrev Byte := BitVec 8

/-- A sextet (field) of a group: `SEXTET_W` = 6 (R10). -/
abbrev Sextet := BitVec 6

/-- An accumulator value: `ACC_W` = 24 (R10). -/
abbrev Acc := BitVec 24

/-- A command word `{end, data[7:0]}`: `CMD_W` = 9 (R11, R80). -/
abbrev CmdWord := BitVec 9

end Sys2Proof
end

