-- ==== Sys2Proof/Config.lean ====
section
/-! DEFINITION. The fixed sizes of the block and its two command ports. R11: "No parameter is left
`OPEN`. A model needs no configuration argument", so there is no implementation-defined constant
here. The free values at the end stand for results the spec states for no counter value that its rules
store (log entry 7). -/

namespace Sys2Proof

/-- The two command ports; the port a command arrives on decides its unit (30_encoding.md R80). -/
inductive Port where
  /-- `enc_cmd`, the encoder's. -/
  | enc
  /-- `dec_cmd`, the decoder's. -/
  | dec
  deriving DecidableEq, Repr

/-- `ENC_GROUP`: a full encoder group has 3 bytes (00_scope.md R10). -/
abbrev Config.encGroup : Nat := 3

/-- A group is written as four characters (40_encoder.md R103). -/
abbrev Config.encChars : Nat := 4

/-- `DEC_CHUNK`: a full decoder chunk has 4 characters (00_scope.md R10). -/
abbrev Config.decChunk : Nat := 4

/-- `DEC.POS` of the last character of a chunk (41_decoder.md R122, R123, R125). -/
abbrev Config.lastPos : BitVec 2 := 3

/-! ### Free values (DESIGN CHOICE, log entry 7)

The spec states no result for these operands, which no run from reset produces; the operation itself
runs. Nothing is known of the values; they depend on the operands alone (00_scope.md R18). -/

/-- What `ENC.CNT` holds after `ENC.BYTE` counts to a number its 2 bits do not hold (R22, R101), by the
new accumulator. -/
opaque Config.openEncCnt : Acc → BitVec 2

/-- What `DEC.CNT` holds after `DEC.CHAR` counts to a number its 3 bits do not hold (R29, R122), by the
new accumulator and `DEC.POS`. -/
opaque Config.openDecCnt : Acc → BitVec 2 → BitVec 3

/-- What `DecChunk(a, n)` would give for `n` > 4, outside the domain of R127. -/
opaque Config.openChunk : Acc → Nat → List Byte

/-- `DECOUT` has three lanes, so no step emits more than three bytes (30_encoding.md R87). -/
abbrev Config.decLanes : Nat := 3

end Sys2Proof
end

