-- ==== Sys2Proof/Syntax.lean ====
section
/-! DEFINITION. The five operations of the command set `B64CMD-1` (30_encoding.md R83), one
constructor per row of the opcode table. -/

namespace Sys2Proof

/-- A command as a unit accepts it. The `data` of an `END` is carried although it is ignored (R82),
so that no bit of a command word is dropped by the decoder. -/
inductive Instr where
  /-- `ENC.BYTE b`: one payload byte (40_encoder.md R101). -/
  | encByte (b : Byte)
  /-- `ENC.END`: end of the payload; `data` is ignored (40_encoder.md R102). -/
  | encEnd (data : Byte)
  /-- `DEC.PAD`: one `=` character (41_decoder.md R125). -/
  | decPad
  /-- `DEC.CHAR c`: one character that is not `=` (41_decoder.md R121). -/
  | decChar (c : Byte)
  /-- `DEC.END`: end of the text; `data` is ignored (41_decoder.md R126). -/
  | decEnd (data : Byte)
  deriving DecidableEq, Repr

end Sys2Proof
end

