-- ==== Sys2Proof/WellFormed.lean ====
section
/-! DEFINITION. Which terms of `Instr` are commands of the hardware, and the port of each. -/

namespace Sys2Proof

/-- R121: the operand of `DEC.CHAR` is any code except `0x3D`, which is `DEC.PAD` (R92). Every other
operand takes every value of its width. -/
def Instr.wellFormed : Instr → Bool
  | .encByte _ => true
  | .encEnd _ => true
  | .decPad => true
  | .decChar c => c != 0x3D
  | .decEnd _ => true

/-- The port a command is presented on (R83, first column). -/
def Instr.port : Instr → Port
  | .encByte _ => .enc
  | .encEnd _ => .enc
  | .decPad => .dec
  | .decChar _ => .dec
  | .decEnd _ => .dec

end Sys2Proof
end

