-- ==== Sys2Proof/Decode.lean ====
section
/-! DEFINITION. The command decoder of each port, the encoder, and the reading of a word of the
opcode table (30_encoding.md R80, R83, R84). -/

namespace Sys2Proof

/-- A row of the opcode map: a word selects it when `cmd & mask = pattern` (R83). -/
structure OpcodeRow where
  mask : CmdWord
  pattern : CmdWord
  deriving DecidableEq, Repr

/-- R83: `cmd & mask = match`. -/
def rowSelects (r : OpcodeRow) (w : CmdWord) : Bool :=
  w &&& r.mask == r.pattern

/-- R83, row `ENC.BYTE`. -/
def encByteRow : OpcodeRow := ⟨0x100, 0x000⟩
/-- R83, row `ENC.END`. -/
def encEndRow : OpcodeRow := ⟨0x100, 0x100⟩
/-- R83, row `DEC.PAD`. -/
def decPadRow : OpcodeRow := ⟨0x1FF, 0x03D⟩
/-- R83, row `DEC.CHAR` (tested after `DEC.PAD`). -/
def decCharRow : OpcodeRow := ⟨0x100, 0x000⟩
/-- R83, row `DEC.END`. -/
def decEndRow : OpcodeRow := ⟨0x100, 0x100⟩

/-- The row of each instruction. -/
def opcodeRow : Instr → OpcodeRow
  | .encByte _ => encByteRow
  | .encEnd _ => encEndRow
  | .decPad => decPadRow
  | .decChar _ => decCharRow
  | .decEnd _ => decEndRow

/-- The field `data`, `cmd[7:0]` (R80). -/
def dataField (w : CmdWord) : Byte :=
  w.extractLsb' 0 8

/-- The decoder of port `enc_cmd`: the rows in the table's order (R83). The last row needs no test,
since its mask is the one bit that the row before it found not to be 0. -/
def decodeEnc (w : CmdWord) : Instr :=
  if rowSelects encByteRow w then .encByte (dataField w) else .encEnd (dataField w)

/-- The decoder of port `dec_cmd`: `DEC.PAD` first, then `DEC.CHAR`, then `DEC.END` (R83). -/
def decodeDec (w : CmdWord) : Instr :=
  if rowSelects decPadRow w then .decPad
  else if rowSelects decCharRow w then .decChar (dataField w)
  else .decEnd (dataField w)

/-- R83, R84: on each port every 9-bit word selects exactly one operation. -/
def decode : Port → CmdWord → Instr
  | .enc, w => decodeEnc w
  | .dec, w => decodeDec w

/-- `{end, data}` (R80). -/
def cmdWord (endBit : BitVec 1) (data : Byte) : CmdWord :=
  endBit ++ data

/-- The command word of an instruction, presented on `Instr.port` (R83, R92). -/
def encode : Instr → CmdWord
  | .encByte b => cmdWord 0 b
  | .encEnd data => cmdWord 1 data
  | .decPad => cmdWord 0 0x3D
  | .decChar c => cmdWord 0 c
  | .decEnd data => cmdWord 1 data

/-! ### Words of the opcode table

The table's rows have 9 bits and a `port` column; the port is not a bit of the word (R80). A table
word is read here with bits 8..0 the command and bit 9 the port: 0 for `dec_cmd`, the port of three
of the five rows, 1 for `enc_cmd`. DESIGN CHOICE, log entry 1: safe, as the hardware has no such
bit and no statement about its behaviour rests on it. -/

/-- Why a table word is not read. -/
inductive DecodeReject where
  /-- A bit above the port bit is 1: the table gives no such bit. Raised by `decodeTagged`; safe. -/
  | bitsAboveCommand
  deriving DecidableEq, Repr

/-- Bits 8..0 of a table word: the command word. -/
def tableCommand (w : Nat) : CmdWord :=
  BitVec.ofNat 9 w

/-- Bit 9 of a table word: the port (log entry 1). -/
def tablePort (w : Nat) : Port :=
  if w.testBit 9 then .enc else .dec

/-- A table word read whole: an instruction, or a rejection by name. -/
def decodeTagged (w : Nat) : Except DecodeReject Instr :=
  if w < 2 ^ 10 then .ok (decode (tablePort w) (tableCommand w)) else .error .bitsAboveCommand

/-- The instruction the decoder reads from a table word of `nbits` bits; bits from `nbits` on are 0. -/
def decodeTableWord (nbits w : Nat) : Option Instr :=
  match decodeTagged (w % 2 ^ nbits) with
  | .ok i => some i
  | .error _ => none

end Sys2Proof
end

