-- ==== Sys2Proof/Machine/State.lean ====
section
/-! DEFINITION. The state of the block as plain data (10_state.md R20 to R41), what the driver drives
and the block drives on the pins (30_encoding.md R86, R87, R91), the reset state, and the reasons a
step can stop. -/

namespace Sys2Proof.Machine

/-- Format `ENCOUT`, the encoder's output word (30_encoding.md R86, R88). -/
structure EncOut where
  /-- `enc_out_valid`. -/
  valid : Bool
  /-- `enc_out_last`. -/
  last : Bool
  /-- `enc_out_data`, character 0 in bits 31 to 24. -/
  data : BitVec 32
  deriving DecidableEq, Repr

/-- Format `DECOUT`, the decoder's output word (30_encoding.md R87, R88). -/
structure DecOut where
  /-- `dec_out_count`, how many lanes are valid. -/
  count : BitVec 2
  /-- `dec_out_last`. -/
  last : Bool
  /-- `dec_out_data`, byte 0 in bits 23 to 16. -/
  data : BitVec 24
  deriving DecidableEq, Repr

/-- What `enc_out_*` carry in a step that emits nothing and is no `END` (R86, R88), and in a cycle without an
encoder step, for which R91 and R190 give `valid` and `last` = 0 only. DESIGN CHOICE (log entry 14): `data`
is 0 in a cycle without a step too. -/
def EncOut.idle : EncOut := { valid := false, last := false, data := 0 }

/-- What `dec_out_*` carry in a step that emits nothing and is no `END` (R87, R88), and in a cycle without a
decoder step, for which R91 and R190 give `count` and `last` = 0 only. DESIGN CHOICE (log entry 14): `data`
is 0 in a cycle without a step too. -/
def DecOut.idle : DecOut := { count := 0, last := false, data := 0 }

/-- The cause of a fault, register `DEC.FCODE`: R172 writes the codes 0 and 1 only and lets a model
make the type a two-valued one (log entry 8). -/
inductive FCode where
  /-- Code 0: no fault has occurred. -/
  | none
  /-- Code 1: `InvalidCharacter`. -/
  | invalidCharacter
  deriving DecidableEq, Repr

/-- The 2-bit value of `DEC.FCODE`, as on the pins `dec_fcode` (R33, R172). -/
def FCode.bits : FCode → BitVec 2
  | .none => 0
  | .invalidCharacter => 1

/-- The encoder unit (R21, R22), its output word of the last cycle (R86) and its output sequence
since reset (R15; log entries 3 and 4). -/
structure EncUnit where
  /-- `ENC.ACC`. -/
  acc : Acc
  /-- `ENC.CNT`. -/
  cnt : BitVec 2
  /-- `enc_out_valid`, `enc_out_last`, `enc_out_data` of the last cycle. -/
  out : EncOut
  /-- The output sequence: every character emitted since reset, oldest first. -/
  emitted : List Byte
  deriving DecidableEq, Repr

/-- The decoder unit (R28 to R34), its output word of the last cycle (R87) and its output sequence
since reset (R15; log entries 3 and 4). -/
structure DecUnit where
  /-- `DEC.ACC`. -/
  acc : Acc
  /-- `DEC.CNT`. -/
  cnt : BitVec 3
  /-- `DEC.POS`. -/
  pos : BitVec 2
  /-- `DEC.SKIP`. -/
  skip : Bool
  /-- `DEC.FAULT`. -/
  fault : Bool
  /-- `DEC.FCODE`. -/
  fcode : FCode
  /-- `DEC.FCHAR`. -/
  fchar : Byte
  /-- `dec_out_count`, `dec_out_last`, `dec_out_data` of the last cycle. -/
  out : DecOut
  /-- The output sequence: every byte emitted since reset, oldest first. -/
  emitted : List Byte
  deriving DecidableEq, Repr

/-- The input pins in one clock cycle (30_encoding.md R91). -/
structure PinsIn where
  /-- `rst`. -/
  rst : Bool
  /-- `enc_cmd_valid`. -/
  encCmdValid : Bool
  /-- `enc_cmd`. -/
  encCmd : CmdWord
  /-- `dec_cmd_valid`. -/
  decCmdValid : Bool
  /-- `dec_cmd`. -/
  decCmd : CmdWord
  deriving DecidableEq, Repr

/-- A cycle in which the driver presents nothing (R186, R196). -/
def PinsIn.idle : PinsIn :=
  { rst := false, encCmdValid := false, encCmd := 0, decCmdValid := false, decCmd := 0 }

/-- The output pins in one clock cycle (30_encoding.md R91, 10_state.md R38). -/
structure PinsOut where
  /-- `enc_cmd_ready`. -/
  encCmdReady : Bool
  /-- `enc_out_valid`, `enc_out_last`, `enc_out_data`. -/
  encOut : EncOut
  /-- `dec_cmd_ready`. -/
  decCmdReady : Bool
  /-- `dec_out_count`, `dec_out_last`, `dec_out_data`. -/
  decOut : DecOut
  /-- `dec_fault`. -/
  decFault : Bool
  /-- `dec_fcode`. -/
  decFcode : BitVec 2
  /-- `dec_fchar`. -/
  decFchar : Byte
  deriving DecidableEq, Repr

/-- The whole block. -/
structure State where
  /-- The encoder unit. -/
  enc : EncUnit
  /-- The decoder unit. -/
  dec : DecUnit
  /-- Whether reset has been applied since power-up (R193; the model's own, log entry 6). -/
  wasReset : Bool
  /-- What the driver will drive, one entry a cycle (the model's own, log entry 2). -/
  input : List PinsIn
  deriving DecidableEq, Repr

/-- The reasons the machine stops with a fault: there are none. The one fault of the hardware,
`InvalidCharacter`, has an entry the spec describes (60_exceptions.md R174), so it is a next state. -/
inductive Fault where
  deriving DecidableEq, Repr

/-- Why a step has no meaning. -/
inductive Refusal where
  /-- An instruction without a meaning: raised by no arm of `exec` (every instruction has one); safe. -/
  | notModelled (mnemonic : String)
  /-- A command presented before the first reset: R193, "A model gives no meaning to a command accepted
  before the first reset" (93 U2: `refuse`). Raised by `cycle`, in states with `wasReset` false; safe
  (log entry 6). -/
  | beforeReset
  deriving DecidableEq, Repr

/-- The outcome of one step of this machine. -/
abbrev Result := Host.Outcome State Fault Refusal

/-- `ENC` right after reset: the idle state, output idle, sequence empty (R25, R40, R190, R191). -/
def EncUnit.reset : EncUnit :=
  { acc := 0, cnt := 0, out := EncOut.idle, emitted := [] }

/-- `DEC` right after reset: the idle state, output idle, sequence empty (R35, R40, R190, R191). -/
def DecUnit.reset : DecUnit :=
  { acc := 0, cnt := 0, pos := 0, skip := false, fault := false, fcode := .none, fchar := 0,
    out := DecOut.idle, emitted := [] }

/-- The machine right after reset (R40, R191), with a driver that presents nothing (log entry 2). -/
def State.reset : State :=
  { enc := EncUnit.reset, dec := DecUnit.reset, wasReset := true, input := [] }

end Sys2Proof.Machine
end

