-- ==== Sys2Proof/Machine/Flags.lean ====
section
/-! DEFINITION. The flags of `DEC`: `SKIP` and the fault fields (10_state.md R31 to R34). `ENC` has no
flag (R26). -/

namespace Sys2Proof.Machine

/-- Write `DEC.SKIP` (R31): set by `DEC.PAD`, cleared by every chunk close. -/
def DecUnit.withSkip (u : DecUnit) (skip : Bool) : DecUnit :=
  { u with skip := skip }

/-- Record a fault: `FAULT <- 1`, `FCODE`, `FCHAR` are written together (R32, R33, R34, R174). -/
def DecUnit.recordFault (u : DecUnit) (code : FCode) (c : Byte) : DecUnit :=
  { u with fault := true, fcode := code, fchar := c }

end Sys2Proof.Machine
end

