-- ==== Sys2Proof/Machine/Roms.lean ====
section
/-! DEFINITION. The two constant tables: the Alphabet ROM and the inverse ROM (20_memory.md R50 to
R57). They are constants of the machine, not state (R57). -/

namespace Sys2Proof.Machine

/-- R51, indices 0 to 15: `A` to `P`. -/
def alphabetRow0 : List Byte :=
  [0x41, 0x42, 0x43, 0x44, 0x45, 0x46, 0x47, 0x48, 0x49, 0x4A, 0x4B, 0x4C, 0x4D, 0x4E, 0x4F, 0x50]

/-- R51, indices 16 to 31: `Q` to `Z`, `a` to `f`. -/
def alphabetRow1 : List Byte :=
  [0x51, 0x52, 0x53, 0x54, 0x55, 0x56, 0x57, 0x58, 0x59, 0x5A, 0x61, 0x62, 0x63, 0x64, 0x65, 0x66]

/-- R51, indices 32 to 47: `g` to `v`. -/
def alphabetRow2 : List Byte :=
  [0x67, 0x68, 0x69, 0x6A, 0x6B, 0x6C, 0x6D, 0x6E, 0x6F, 0x70, 0x71, 0x72, 0x73, 0x74, 0x75, 0x76]

/-- R51, indices 48 to 63: `w` to `z`, `0` to `9`, `+`, `/`. -/
def alphabetRow3 : List Byte :=
  [0x77, 0x78, 0x79, 0x7A, 0x30, 0x31, 0x32, 0x33, 0x34, 0x35, 0x36, 0x37, 0x38, 0x39, 0x2B, 0x2F]

/-- The 64 entries of the Alphabet ROM in index order (R51). -/
def alphabetTable : List Byte :=
  alphabetRow0 ++ alphabetRow1 ++ alphabetRow2 ++ alphabetRow3

/-- `Alphabet[i]` (R51). The table has an entry for every 6-bit index, so the default is never read. -/
def alphabet (i : Sextet) : Byte :=
  alphabetTable.getD i.toNat 0

/-- The pad character `=`, `0x3D` (R52, R56). -/
def padChar : Byte := 0x3D

/-- An entry of the inverse ROM: 7 bits, `valid` and `idx` (R50, R54). -/
structure InvEntry where
  valid : Bool
  idx : Sextet
  deriving DecidableEq, Repr

/-- `Inv[c]` (R54): the index at which the Alphabet holds `c`, or `(0, 0)` where it holds it nowhere. -/
def invRom (c : Byte) : InvEntry :=
  match alphabetTable.findIdx? (· == c) with
  | some i => { valid := true, idx := BitVec.ofNat 6 i }
  | none => { valid := false, idx := 0 }

end Sys2Proof.Machine
end

