-- ==== Sys2Proof/Machine/Operands.lean ====
section
/-! DEFINITION. How symbols enter an accumulator, how fields and bytes are cut from a 24-bit group
value, and how symbols are laid out on the output lanes (20_memory.md R60 to R63; 30_encoding.md R86
to R90). -/

namespace Sys2Proof.Machine

/-- `((a << 8)[23:0]) | zext_24(b)`: a byte enters at the low end (R90, R101). -/
def shiftInByte (a : Acc) (b : Byte) : Acc :=
  (a <<< 8) ||| b.setWidth 24

/-- `((a << 6)[23:0]) | zext_24(idx)`: a sextet enters at the low end (R90, R122). -/
def shiftInSextet (a : Acc) (i : Sextet) : Acc :=
  (a <<< 6) ||| i.setWidth 24

/-- `V` of a group of `n` bytes: left-justified by 8 for each byte it lacks (R103; C4). -/
def justifyBytes (a : Acc) (n : Nat) : Acc :=
  a <<< (8 * (3 - n))

/-- `V` of a chunk of `n` sextets: left-justified by 6 for each sextet it lacks (R127; C1). -/
def justifySextets (a : Acc) (n : Nat) : Acc :=
  a <<< (6 * (4 - n))

/-- `field_j = (V >> 6*(3-j)) & 0x3F` (R89). -/
def fieldAt (v : Acc) (j : Nat) : Sextet :=
  ((v >>> (6 * (3 - j))) &&& 0x3F).setWidth 6

/-- Byte `j` of `V`: `(V >> 8*(2-j)) & 0xFF` (R89). -/
def byteAt (v : Acc) (j : Nat) : Byte :=
  ((v >>> (8 * (2 - j))) &&& 0xFF).setWidth 8

/-- Lane `j` of an output word that carries `symbols`: 0 past the last (R86, R87). -/
def lane (symbols : List Byte) (j : Nat) : Byte :=
  symbols.getD j 0

/-- The encoder's output word for a step that emits `chars` (none or four), character 0 in the most
significant lane (R63, R86, R88). -/
def encWord (chars : List Byte) (last : Bool) : EncOut :=
  { valid := !chars.isEmpty, last := last,
    data := lane chars 0 ++ lane chars 1 ++ lane chars 2 ++ lane chars 3 }

/-- The decoder's output word for a step that emits `bytes` (at most three), byte 0 in the most
significant lane (R63, R87, R88). -/
def decWord (bytes : List Byte) (last : Bool) : DecOut :=
  { count := BitVec.ofNat 2 bytes.length, last := last,
    data := lane bytes 0 ++ lane bytes 1 ++ lane bytes 2 }

end Sys2Proof.Machine
end

