-- ==== Sys2Proof/Machine/Ops.lean ====
section
/-! DEFINITION. The shared operations: the two close functions, the updates of a unit, receiving a
character, taking the fault `InvalidCharacter`, and reset, the only return from it. -/

namespace Sys2Proof.Machine

/-! ### The close functions -/

/-- Character `j` of a group of `n` bytes with group value `v` (40_encoder.md R103). -/
def groupChar (v : Acc) (n j : Nat) : Byte :=
  if j ≤ n then alphabet (fieldAt v j) else padChar

/-- `EncGroup(a, n)` for `n` = 1, 2, 3 (40_encoder.md R103). -/
def encGroup (a : Acc) (n : Nat) : List Byte :=
  (List.range Config.encChars).map (groupChar (justifyBytes a n) n)

/-- `DecChunk(a, n)` for `n` = 0 to 4 (41_decoder.md R127). For a larger `n`, which no rule stores, the spec
states no bytes: they are free, at most the three an output word carries (R87; log entry 7). -/
def decChunk (a : Acc) (n : Nat) : List Byte :=
  if n ≤ 1 then []
  else if n ≤ Config.decChunk then (List.range (n - 1)).map (byteAt (justifySextets a n))
  else (Config.openChunk a n).take Config.decLanes

/-! ### The counters -/

/-- `ENC.CNT <- n` (R101): a number past the 2-bit register leaves a free value (log entry 7). -/
def encCntFor (a : Acc) (n : Nat) : BitVec 2 :=
  if n < 2 ^ 2 then BitVec.ofNat 2 n else Config.openEncCnt a

/-- `DEC.CNT <- n` (R122): a number past the 3-bit register leaves a free value (log entry 7). -/
def decCntFor (a : Acc) (pos : BitVec 2) (n : Nat) : BitVec 3 :=
  if n < 2 ^ 3 then BitVec.ofNat 3 n else Config.openDecCnt a pos

/-! ### Updates of a unit -/

/-- Replace the encoder unit; nothing else of the block changes (00_scope.md R8). -/
def State.withEnc (s : State) (u : EncUnit) : State :=
  { s with enc := u }

/-- Replace the decoder unit; nothing else of the block changes (00_scope.md R8). -/
def State.withDec (s : State) (u : DecUnit) : State :=
  { s with dec := u }

/-- The group stays open with `n` bytes in `a`; nothing is emitted (R101). -/
def EncUnit.hold (u : EncUnit) (a : Acc) (n : Nat) : EncUnit :=
  { u with acc := a, cnt := encCntFor a n, out := EncOut.idle }

/-- The group is closed: emit `chars`, clear `ACC` and `CNT` (R101, R102). -/
def EncUnit.close (u : EncUnit) (chars : List Byte) (last : Bool) : EncUnit :=
  { acc := 0, cnt := 0, out := encWord chars last, emitted := u.emitted ++ chars }

/-- A cycle without an encoder step: the output word is idle, all else stays (R91; its data, which R91 does
not give, log entry 14). -/
def EncUnit.quiet (u : EncUnit) : EncUnit :=
  { u with out := EncOut.idle }

/-- The chunk stays open: `a`, `n` and `skip` are held, `POS` advances; nothing is emitted (R122,
R123, R125). -/
def DecUnit.advance (u : DecUnit) (a : Acc) (n : Nat) (skip : Bool) : DecUnit :=
  { u.withSkip skip with
    acc := a, cnt := decCntFor a u.pos n, pos := u.pos + 1, out := DecOut.idle }

/-- The chunk is closed: emit `bytes`, clear `ACC`, `CNT`, `POS`, `SKIP` (R128). -/
def DecUnit.close (u : DecUnit) (bytes : List Byte) (last : Bool) : DecUnit :=
  { u.withSkip false with
    acc := 0, cnt := 0, pos := 0, out := decWord bytes last, emitted := u.emitted ++ bytes }

/-- A cycle without a decoder step, an unaccepted command included: the output word is idle, all else
stays (R91, R133; its data, which R91 does not give, log entry 14). -/
def DecUnit.quiet (u : DecUnit) : DecUnit :=
  { u with out := DecOut.idle }

/-! ### The decoder's common steps -/

/-- The end of the step of a data command that does not fault, `n` characters being consumed in `a`:
the command received at `POS` = 3 closes the chunk, an earlier one advances (R122, R123, R125). -/
def receive (a : Acc) (n : Nat) (skip : Bool) (s : State) : State :=
  if s.dec.pos = Config.lastPos then s.withDec (s.dec.close (decChunk a n) false)
  else s.withDec (s.dec.advance a n skip)

/-- A command that is not accepted because `DEC.FAULT` = 1: no register changes and nothing is emitted
(41_decoder.md R133, 60_exceptions.md R176; log entry 9). -/
def decNotAccepted (s : State) : State :=
  s.withDec s.dec.quiet

/-! ### The fault and the return from it -/

/-- Taking the fault `InvalidCharacter(c)`: `FAULT`, `FCODE`, `FCHAR` are written and nothing else; the
step emits nothing (60_exceptions.md R171, R174). -/
def raiseInvalidCharacter (c : Byte) (s : State) : State :=
  s.withDec (s.dec.quiet.recordFault .invalidCharacter c)

/-- Reset, the only way out of the faulted state (R177): both units take their reset values, whatever
the state (70_reset_and_hazards.md R190, R191, R192). What the driver drives next is not the block's. -/
def applyReset (s : State) : State :=
  { State.reset with input := s.input }

/-! ### Outcomes -/

/-- Go on from a next state; a fault or a refusal stays. -/
def andThen (o : Result) (f : State → Result) : Result :=
  match o with
  | .next s => f s
  | .fault r => .fault r
  | .refused r => .refused r

/-- The next state of an outcome, if it is one. -/
def nextState (o : Result) : Option State :=
  match o with
  | .next s => some s
  | .fault _ => none
  | .refused _ => none

/-- The refusal of an outcome, if it is one. -/
def refusalOf (o : Result) : Option Refusal :=
  match o with
  | .next _ => none
  | .fault _ => none
  | .refused r => some r

end Sys2Proof.Machine
end

