-- ==== Sys2Proof/Machine/Decoder.lean ====
section
/-! DEFINITION. The meanings of the decoder's operations (41_decoder.md). -/

namespace Sys2Proof.Machine

/-- `DEC.CHAR c`, symbol case with index `i` (R122): the character is consumed. -/
def decSymbol (i : Sextet) (s : State) : State :=
  receive (shiftInSextet s.dec.acc i) (s.dec.cnt.toNat + 1) false s

/-- A character that is not consumed: `DEC.CHAR` in its skipped case (R123) and `DEC.PAD` (R125) leave
`ACC` and `CNT` alone, and `SKIP` is 1 unless the chunk closes. -/
def decIgnore (s : State) : State :=
  receive s.dec.acc s.dec.cnt.toNat true s

/-- `DEC.CHAR c` (R121): not accepted while faulted (R133); the skip test comes before the lookup
(R123); then the symbol case (R122) or the fault (R124). -/
def execDecChar (c : Byte) (s : State) : Result :=
  if s.dec.fault then .next (decNotAccepted s)
  else if s.dec.skip then .next (decIgnore s)
  else if (invRom c).valid then .next (decSymbol (invRom c).idx s)
  else .next (raiseInvalidCharacter c s)

/-- `DEC.PAD` (R125): not accepted while faulted (R133); stop consuming the chunk. -/
def execDecPad (s : State) : Result :=
  if s.dec.fault then .next (decNotAccepted s) else .next (decIgnore s)

/-- `DEC.END` (R126): not accepted while faulted (R133); close the chunk; `last`. The `data` bits are
ignored (R82). -/
def execDecEnd (_data : Byte) (s : State) : Result :=
  if s.dec.fault then .next (decNotAccepted s)
  else .next (s.withDec (s.dec.close (decChunk s.dec.acc s.dec.cnt.toNat) true))

end Sys2Proof.Machine
end

