-- ==== Sys2Proof/Machine/Encoder.lean ====
section
/-! DEFINITION. The meanings of the encoder's operations (40_encoder.md). -/

namespace Sys2Proof.Machine

/-- `ENC.BYTE b` (R101): shift the byte in; the third byte of a group closes it. -/
def execEncByte (b : Byte) (s : State) : Result :=
  let a := shiftInByte s.enc.acc b
  let n := s.enc.cnt.toNat + 1
  if n = Config.encGroup then .next (s.withEnc (s.enc.close (encGroup a n) false))
  else .next (s.withEnc (s.enc.hold a n))

/-- `ENC.END` (R102): close the short group if one is open; `last`. The `data` bits are ignored (R82). -/
def execEncEnd (_data : Byte) (s : State) : Result :=
  let chars := if s.enc.cnt = 0 then [] else encGroup s.enc.acc s.enc.cnt.toNat
  .next (s.withEnc (s.enc.close chars true))

end Sys2Proof.Machine
end

