-- ==== Sys2Proof/Machine/Dispatch.lean ====
section
/-! DEFINITION. `exec`: the step of the spec, the acceptance of one command by one unit (00_scope.md
R15), one arm per instruction. -/

namespace Sys2Proof.Machine

def exec (i : Instr) (s : State) : Host.Outcome State Fault Refusal :=
  match i with
  | .encByte b => Sys2Proof.Machine.execEncByte b s
  | .encEnd data => Sys2Proof.Machine.execEncEnd data s
  | .decPad => Sys2Proof.Machine.execDecPad s
  | .decChar c => Sys2Proof.Machine.execDecChar c s
  | .decEnd data => Sys2Proof.Machine.execDecEnd data s

end Sys2Proof.Machine
end

