-- ==== Sys2Proof/Machine/Cycle.lean ====
section
/-! DEFINITION. One clock cycle of the block at its pins: reset, acceptance of commands on the two
ports, and the output pins (30_encoding.md R91; 70_reset_and_hazards.md R190 to R193). -/

namespace Sys2Proof.Machine

/-- `enc_cmd_ready`: 1 whenever `rst` = 0 (R91, R106). DESIGN CHOICE (log entry 13): so too before the first
reset, where R193 and 93 U2 leave every output pin unspecified. -/
def encCmdReady (p : PinsIn) : Bool :=
  !p.rst

/-- `dec_cmd_ready`: 1 when `rst` = 0 and `DEC.FAULT` = 0 (R91, R133). DESIGN CHOICE (log entry 13): so too
before the first reset, where R193 and 93 U2 leave every output pin unspecified. -/
def decCmdReady (p : PinsIn) (s : State) : Bool :=
  !p.rst && !s.dec.fault

/-- The encoder's part of a cycle outside reset: a command is accepted when valid and ready, otherwise
the unit takes no step and its output word is idle (R91). -/
def encCycle (p : PinsIn) (s : State) : Result :=
  if p.encCmdValid && encCmdReady p then exec (decode .enc p.encCmd) s
  else .next (s.withEnc s.enc.quiet)

/-- The decoder's part of a cycle outside reset (R91, R133). -/
def decCycle (p : PinsIn) (s : State) : Result :=
  if p.decCmdValid && decCmdReady p s then exec (decode .dec p.decCmd) s
  else .next (s.withDec s.dec.quiet)

/-- One clock cycle with input pins `p`. Reset wins over everything (R178, R190). Before the first reset
a command has no meaning (R193; log entry 6). Otherwise each unit may accept one command; they share
nothing, so their order does not matter (R8; log entry 5). -/
def cycle (p : PinsIn) (s : State) : Result :=
  if p.rst then .next (applyReset s)
  else if s.wasReset then andThen (encCycle p s) (decCycle p)
  else if p.encCmdValid || p.decCmdValid then .refused .beforeReset
  else .next s

/-- The input pins of the next cycle; a driver with nothing left to present leaves the block idle. -/
def nextPins (s : State) : PinsIn :=
  s.input.headD PinsIn.idle

/-- The state in which the next cycle is taken: the driver has moved on. -/
def takePins (s : State) : State :=
  { s with input := s.input.tail }

/-- The output pins of the cycle with input pins `p` that goes from `s` to `t`: the ready and fault pins
follow the registers before the clock edge, the output words belong to the step (R38, R91, R174).
DESIGN CHOICE (log entry 13): so too before the first reset, where R193 and 93 U2 leave every output pin
unspecified. -/
def pinsOut (p : PinsIn) (s t : State) : PinsOut :=
  { encCmdReady := encCmdReady p, encOut := t.enc.out,
    decCmdReady := decCmdReady p s, decOut := t.dec.out,
    decFault := s.dec.fault, decFcode := s.dec.fcode.bits, decFchar := s.dec.fchar }

/-- A cycle that presents `w` on one port and nothing on the other. -/
def present (port : Port) (w : CmdWord) : PinsIn :=
  match port with
  | .enc => { PinsIn.idle with encCmdValid := true, encCmd := w }
  | .dec => { PinsIn.idle with decCmdValid := true, decCmd := w }

/-- The commands presented on `enc_cmd` in a list of cycles, in order; outside reset each is accepted
(R106). -/
def encCommandsOf (ps : List PinsIn) : List Instr :=
  (ps.filter (·.encCmdValid)).map fun p => decode .enc p.encCmd

/-- The commands presented on `dec_cmd` in a list of cycles, in order; those presented to a faulted unit
are among them, and change nothing (R133). -/
def decCommandsOf (ps : List PinsIn) : List Instr :=
  (ps.filter (·.decCmdValid)).map fun p => decode .dec p.decCmd

end Sys2Proof.Machine
end

