-- ==== Sys2Proof/Machine/Step.lean ====
section
/-! DEFINITION. One step of the machine: one clock cycle on the pins the driver drives next. -/

namespace Sys2Proof.Machine

/-- One clock cycle (30_encoding.md R91; log entry 2). -/
def step (s : State) : Host.Outcome State Fault Refusal :=
  cycle (nextPins s) (takePins s)

/-- The driver presents a word of the opcode table in the very next cycle, on the port of bit 9 (log
entry 1). -/
def State.withFetchWord (s : State) (nbits w : Nat) : State :=
  { s with input := present (tablePort (w % 2 ^ nbits)) (tableCommand (w % 2 ^ nbits)) :: s.input }

end Sys2Proof.Machine
end

