-- ==== Sys2Proof/Machine/Payload.lean ====
section
/-! DEFINITION. Whole payloads: the runs of a unit (00_scope.md R16), the functions `encode` and
`decode` they compute, and the closed forms the spec gives for them (42_payload_functions.md R150 to
R153). -/

namespace Sys2Proof.Machine

/-- The steps for a list of accepted commands, in order, up to the first refusal (R15, R69). -/
def execAll : List Instr → State → Result
  | [], s => .next s
  | i :: rest, s => andThen (exec i s) (execAll rest)

/-- The commands of an encoder run: one `ENC.BYTE` per byte, then `ENC.END` (R92, R150). -/
def encodeCommands (p : List Byte) : List Instr :=
  p.map Instr.encByte ++ [.encEnd 0]

/-- The data command of a character: `DEC.PAD` for `=`, else `DEC.CHAR` (R152). -/
def charCommand (c : Byte) : Instr :=
  if c = padChar then .decPad else .decChar c

/-- The commands of a decoder run: one data command per character, then `DEC.END` (R92, R152). -/
def decodeCommands (t : List Byte) : List Instr :=
  t.map charCommand ++ [.decEnd 0]

/-- `encode(P)` (R150): what `ENC` emits in the run from reset; `none` if the run were refused. -/
def encodePayload (p : List Byte) : Option (List Byte) :=
  (nextState (execAll (encodeCommands p) State.reset)).map fun s => s.enc.emitted

/-- The result of `decode` (R152). -/
inductive DecodeResult where
  /-- The byte sequence of a run that ended. -/
  | bytes (b : List Byte)
  /-- The failure `InvalidCharacter(c)`. -/
  | invalidCharacter (c : Byte)
  deriving DecidableEq, Repr

/-- The result the decoder's state shows at the end of a run's commands (R152). -/
def decodeResultOf (s : State) : DecodeResult :=
  if s.dec.fault then .invalidCharacter s.dec.fchar else .bytes s.dec.emitted

/-- `decode(T)` (R152): the result of the run of `DEC` from reset; `none` if the run were refused. -/
def decodeText (t : List Byte) : Option DecodeResult :=
  (nextState (execAll (decodeCommands t) State.reset)).map decodeResultOf

/-- `decode(encode(P))` (R158, R159); `none` if it were to fail. -/
def roundTripPayload (p : List Byte) : Option (List Byte) :=
  match (encodePayload p).bind decodeText with
  | some (.bytes b) => some b
  | _ => none

/-- The other composition, `encode(decode(T))` (R161); `none` where `decode(T)` fails. -/
def reencodeText (t : List Byte) : Option (List Byte) :=
  match decodeText t with
  | some (.bytes b) => encodePayload b
  | _ => none

/-! ### The closed forms -/

/-- Bytes concatenated, the first most significant, as a 24-bit value (R151). -/
def concatBytes (g : List Byte) : Acc :=
  BitVec.ofNat 24 (g.foldl (fun v b => v * 2 ^ 8 + b.toNat) 0)

/-- Sextets concatenated, the first most significant, as a 24-bit value (R153). -/
def concatSextets (g : List Sextet) : Acc :=
  BitVec.ofNat 24 (g.foldl (fun v i => v * 2 ^ 6 + i.toNat) 0)

/-- Group `k` of a payload: bytes `3k` to `3k+2`, fewer in the last (R64, R151). -/
def groupOf (p : List Byte) (k : Nat) : List Byte :=
  (p.drop (3 * k)).take 3

/-- R151: the groups' characters in input order. -/
def encodeClosed (p : List Byte) : List Byte :=
  (List.range ((p.length + 2) / 3)).flatMap fun k =>
    encGroup (concatBytes (groupOf p k)) (groupOf p k).length

/-- Chunk `k` of a text: characters `4k` to `4k+3`, fewer in the last (R65, R153). -/
def chunkOf (t : List Byte) (k : Nat) : List Byte :=
  (t.drop (4 * k)).take 4

/-- The consumed characters of chunk `k`: those before its first `=` (R153). -/
def consumedOf (t : List Byte) (k : Nat) : List Byte :=
  (chunkOf t k).takeWhile (· != padChar)

/-- The numbers of a text's chunks. -/
def chunkNumbers (t : List Byte) : List Nat :=
  List.range ((t.length + 3) / 4)

/-- `D_k` (R153): the bytes of chunk `k`. -/
def chunkBytes (t : List Byte) (k : Nat) : List Byte :=
  decChunk (concatSextets ((consumedOf t k).map fun c => (invRom c).idx)) (consumedOf t k).length

/-- Whether every consumed character of chunk `k` is in the alphabet (R153). -/
def chunkValid (t : List Byte) (k : Nat) : Bool :=
  (consumedOf t k).all fun c => (invRom c).valid

/-- The first consumed character, in text order, that is not in the alphabet (R153). -/
def firstInvalid (t : List Byte) : Option Byte :=
  ((chunkNumbers t).flatMap (consumedOf t)).find? fun c => !(invRom c).valid

/-- The bytes on the output sequence at the end or at the fault: those of the chunks before the first
that has an invalid consumed character (R153, R175). -/
def decodeEmitted (t : List Byte) : List Byte :=
  ((chunkNumbers t).takeWhile (chunkValid t)).flatMap (chunkBytes t)

/-- R153: `decode(T)` in closed form. -/
def decodeClosed (t : List Byte) : DecodeResult :=
  match firstInvalid t with
  | some c => .invalidCharacter c
  | none => .bytes ((chunkNumbers t).flatMap (chunkBytes t))

end Sys2Proof.Machine
end

