-- ==== Sys2Proof/Safety.lean ====
section
/-! DEFINITION. What holds between steps: the idle states and the invariants of the two units, in
the terms the statements use (10_state.md R23, R25, R35, R36; 40_encoder.md R108). -/

namespace Sys2Proof.Machine

/-- The idle state of `ENC` (R25). -/
abbrev EncIdle (u : EncUnit) : Prop :=
  u.acc = 0 ∧ u.cnt = 0

/-- The idle state of `DEC` (R35). -/
abbrev DecIdle (u : DecUnit) : Prop :=
  u.acc = 0 ∧ u.cnt = 0 ∧ u.pos = 0 ∧ u.skip = false ∧ u.fault = false ∧ u.fcode = .none ∧
    u.fchar = 0

/-- The encoder invariants of R23: `CNT <= 2` and `ACC < 2^(8*CNT)`. -/
abbrev EncInv (u : EncUnit) : Prop :=
  u.cnt.toNat ≤ 2 ∧ u.acc.toNat < 2 ^ (8 * u.cnt.toNat)

/-- The decoder invariants of R36. -/
abbrev DecInv (u : DecUnit) : Prop :=
  u.cnt.toNat ≤ u.pos.toNat ∧
  u.acc.toNat < 2 ^ (6 * u.cnt.toNat) ∧
  (u.skip = false → u.cnt.toNat = u.pos.toNat) ∧
  (u.skip = true → 1 ≤ u.pos.toNat ∧ u.cnt.toNat < u.pos.toNat) ∧
  (u.fault = false → u.fcode = .none ∧ u.fchar = 0) ∧
  (u.fault = true →
    u.fcode = .invalidCharacter ∧ (invRom u.fchar).valid = false ∧ u.fchar ≠ padChar ∧ u.skip = false)

/-- A symbol the encoder may emit: an alphabet code or `=` (R108). -/
abbrev IsTextChar (c : Byte) : Prop :=
  (invRom c).valid = true ∨ c = padChar

/-- The encoder's output sequence is made of groups of four text characters (R86, R108), and its output
word carries data only when valid (R86; in a cycle without a step, log entry 14). -/
abbrev EncOutInv (u : EncUnit) : Prop :=
  u.emitted.length % 4 = 0 ∧ (∀ c ∈ u.emitted, IsTextChar c) ∧
    (u.out.valid = false → u.out.data = 0)

/-- The lanes of the decoder's output word at and beyond the count are 0 (R87; in a cycle without a
step, log entry 14). -/
abbrev DecOutInv (u : DecUnit) : Prop :=
  (u.out.count.toNat ≤ 2 → u.out.data.extractLsb' 0 8 = 0) ∧
  (u.out.count.toNat ≤ 1 → u.out.data.extractLsb' 8 8 = 0) ∧
  (u.out.count.toNat = 0 → u.out.data.extractLsb' 16 8 = 0)

/-- The invariant of the whole block. -/
abbrev BlockInv (s : State) : Prop :=
  EncInv s.enc ∧ EncOutInv s.enc ∧ DecInv s.dec ∧ DecOutInv s.dec

end Sys2Proof.Machine
end

