-- ==== Sys2Proof/Certificates/Slice0/Obligations.lean ====
section
/-! DEFINITION. The statements for the provers. Each docstring names the rules of spec/ it formalises.
The hardware has no read-write memory (R50), so no statement has a memory clause. -/

open Sys2Proof Sys2Proof.Machine Host.Outcome

/-! ### The two constant tables -/

/-- R52: the character codes in closed form, the code of `=`, and bit 7 of every code emitted. -/
def Obligations.AlphabetRomClosedForm : Prop :=
  padChar = 0x3D ∧
  ∀ i : Sextet,
    alphabet i =
      (if i.toNat ≤ 25 then BitVec.ofNat 8 (0x41 + i.toNat)
       else if i.toNat ≤ 51 then BitVec.ofNat 8 (0x61 + (i.toNat - 26))
       else if i.toNat ≤ 61 then BitVec.ofNat 8 (0x30 + (i.toNat - 52))
       else if i.toNat = 62 then 0x2B
       else 0x2F) ∧
    (alphabet i).msb = false

/-- R53: index to character is one to one, no code is `=`, all are below 0x80. -/
def Obligations.AlphabetCodesDistinct : Prop :=
  (∀ i j : Sextet, alphabet i = alphabet j → i = j) ∧
  ∀ i : Sextet, alphabet i ≠ 0x3D ∧ (alphabet i).toNat < 0x80

/-- R54: the inverse ROM holds the index of every alphabet character and `(0, 0)` elsewhere. -/
def Obligations.InverseRomFindsTheIndex : Prop :=
  (∀ (c : Byte) (i : Sextet), alphabet i = c → invRom c = { valid := true, idx := i }) ∧
  ∀ c : Byte, (∀ i : Sextet, alphabet i ≠ c) → invRom c = { valid := false, idx := 0 }

/-- R55: all 256 entries of the inverse ROM by range, the counts 64 and 192, the two inverse laws, and
the two URL-safe characters. -/
def Obligations.InverseRomByRange : Prop :=
  (∀ c : Byte,
    invRom c =
      (if c.toNat = 0x2B then { valid := true, idx := 62 }
       else if c.toNat = 0x2F then { valid := true, idx := 63 }
       else if 0x30 ≤ c.toNat ∧ c.toNat ≤ 0x39 then { valid := true, idx := BitVec.ofNat 6 (c.toNat + 4) }
       else if 0x41 ≤ c.toNat ∧ c.toNat ≤ 0x5A then { valid := true, idx := BitVec.ofNat 6 (c.toNat - 0x41) }
       else if 0x61 ≤ c.toNat ∧ c.toNat ≤ 0x7A then { valid := true, idx := BitVec.ofNat 6 (c.toNat - 0x47) }
       else { valid := false, idx := 0 })) ∧
  ((List.range 256).filter fun n => (invRom (BitVec.ofNat 8 n)).valid).length = 64 ∧
  ((List.range 256).filter fun n => !(invRom (BitVec.ofNat 8 n)).valid).length = 192 ∧
  (∀ i : Sextet, invRom (alphabet i) = { valid := true, idx := i }) ∧
  (∀ c : Byte, (invRom c).valid = true → alphabet (invRom c).idx = c) ∧
  (invRom 0x2D).valid = false ∧ (invRom 0x5F).valid = false

/-! ### The two close functions -/

/-- R104: the padding policy. The four characters of a group of 3, 2 or 1 bytes in terms of the bytes'
bits, and the padded fields, which are 0 and written as `=`. -/
def Obligations.EncGroupByBytes : Prop :=
  (∀ b0 b1 b2 : Byte,
    encGroup (b0 ++ b1 ++ b2) 3 =
      [alphabet (b0.extractLsb' 2 6),
       alphabet (b0.extractLsb' 0 2 ++ b1.extractLsb' 4 4),
       alphabet (b1.extractLsb' 0 4 ++ b2.extractLsb' 6 2),
       alphabet (b2.extractLsb' 0 6)]) ∧
  (∀ b0 b1 : Byte,
    encGroup ((b0 ++ b1).setWidth 24) 2 =
      [alphabet (b0.extractLsb' 2 6),
       alphabet (b0.extractLsb' 0 2 ++ b1.extractLsb' 4 4),
       alphabet (b1.extractLsb' 0 4 ++ 0#2),
       0x3D] ∧
    fieldAt (justifyBytes ((b0 ++ b1).setWidth 24) 2) 3 = 0) ∧
  ∀ b0 : Byte,
    encGroup (b0.setWidth 24) 1 =
      [alphabet (b0.extractLsb' 2 6),
       alphabet (b0.extractLsb' 0 2 ++ 0#4),
       0x3D,
       0x3D] ∧
    fieldAt (justifyBytes (b0.setWidth 24) 1) 2 = 0 ∧
    fieldAt (justifyBytes (b0.setWidth 24) 1) 3 = 0

/-- The table of R128: the bytes of a chunk of 0 to 4 sextets in terms of the sextets' bits; the bits
that do not fill a byte are dropped unchecked (R131). -/
def Obligations.DecChunkBySextets : Prop :=
  (∀ a : Acc, decChunk a 0 = [] ∧ decChunk a 1 = []) ∧
  (∀ i0 i1 : Sextet,
    decChunk ((i0 ++ i1).setWidth 24) 2 = [i0 ++ i1.extractLsb' 4 2]) ∧
  (∀ i0 i1 i2 : Sextet,
    decChunk ((i0 ++ i1 ++ i2).setWidth 24) 3 =
      [i0 ++ i1.extractLsb' 4 2, i1.extractLsb' 0 4 ++ i2.extractLsb' 2 4]) ∧
  ∀ i0 i1 i2 i3 : Sextet,
    decChunk (i0 ++ i1 ++ i2 ++ i3) 4 =
      [i0 ++ i1.extractLsb' 4 2, i1.extractLsb' 0 4 ++ i2.extractLsb' 2 4, i2.extractLsb' 0 2 ++ i3]

/-! ### The command word -/

/-- R83: the opcode map of both ports, `DEC.PAD` before `DEC.CHAR`. -/
def Obligations.OpcodeMap : Prop :=
  ∀ w : CmdWord,
    (w &&& 0x100 = 0x000 → decode .enc w = .encByte (w.setWidth 8)) ∧
    (w &&& 0x100 = 0x100 → decode .enc w = .encEnd (w.setWidth 8)) ∧
    (w &&& 0x1FF = 0x03D → decode .dec w = .decPad) ∧
    (w &&& 0x100 = 0x000 → w.setWidth 8 ≠ (0x3D : Byte) → decode .dec w = .decChar (w.setWidth 8)) ∧
    (w &&& 0x100 = 0x100 → decode .dec w = .decEnd (w.setWidth 8))

/-- A few command words of the spec's table of command decodes (95_test_vectors.md section 2.8). -/
def Obligations.SampleCommandWords : Prop :=
  decode .enc 0x03D = .encByte 0x3D ∧ decode .enc 0x13D = .encEnd 0x3D ∧
  decode .dec 0x03D = .decPad ∧ decode .dec 0x03E = .decChar 0x3E ∧
  decode .dec 0x054 = .decChar 0x54 ∧ decode .dec 0x13D = .decEnd 0x3D

/-- Decode and encode agree: every well-formed instruction is read back, on its port, from its command
word, with its operand at every value (R83, R92). -/
def Obligations.DecodeOfEncode : Prop :=
  ∀ i : Instr, i.wellFormed = true → decode i.port (encode i) = i

/-- R84: all 512 words decode on each port, each to one well-formed command of that port. That encoding
gives the word back, the ignored data bits of an `END` among it, is the model's choice (log entry 10:
`END` carries them as an operand). -/
def Obligations.EveryWordIsOneCommand : Prop :=
  ∀ (p : Port) (w : CmdWord),
    (decode p w).port = p ∧ (decode p w).wellFormed = true ∧ encode (decode p w) = w

/-! ### The encoder's operations -/

/-- R101: `ENC.BYTE b`, its encoding, its next state, the shift that loses no bit, the zero byte on a
zero accumulator, and the worked example. -/
def Obligations.EncByteResult : Prop :=
  (∀ w : CmdWord, w.msb = false → decode .enc w = .encByte (w.setWidth 8)) ∧
  (∀ (b : Byte) (s : State), s.enc.cnt.toNat ≤ 2 →
    exec (.encByte b) s = next
      { s with enc :=
          if s.enc.cnt.toNat + 1 = 3 then
            { acc := 0, cnt := 0,
              out := encWord (encGroup ((s.enc.acc <<< 8) ||| b.setWidth 24) 3) false,
              emitted := s.enc.emitted ++ encGroup ((s.enc.acc <<< 8) ||| b.setWidth 24) 3 }
          else
            { acc := (s.enc.acc <<< 8) ||| b.setWidth 24, cnt := s.enc.cnt + 1,
              out := { valid := false, last := false, data := 0 }, emitted := s.enc.emitted } }) ∧
  (∀ (b : Byte) (s : State), EncInv s.enc →
    ((s.enc.acc <<< 8) ||| b.setWidth 24).toNat = s.enc.acc.toNat * 2 ^ 8 + b.toNat) ∧
  (∀ s : State, EncIdle s.enc →
    ∃ t, exec (.encByte 0) s = next t ∧ t.enc.acc = 0 ∧ t.enc.cnt = 1) ∧
  ∀ s : State, s.enc.acc = 0x004D61 → s.enc.cnt = 2 →
    ∃ t, exec (.encByte 0x6E) s = next t ∧ EncIdle t.enc ∧
      t.enc.emitted = s.enc.emitted ++ [0x54, 0x57, 0x46, 0x75]

/-- R102: `ENC.END`, its encoding, its next state for every value of the ignored data bits, and the
worked example. -/
def Obligations.EncEndResult : Prop :=
  (∀ w : CmdWord, w.msb = true → decode .enc w = .encEnd (w.setWidth 8)) ∧
  (∀ (d : Byte) (s : State),
    exec (.encEnd d) s = next
      { s with enc :=
          if s.enc.cnt = 0 then
            { acc := 0, cnt := 0, out := { valid := false, last := true, data := 0 },
              emitted := s.enc.emitted }
          else
            { acc := 0, cnt := 0, out := encWord (encGroup s.enc.acc s.enc.cnt.toNat) true,
              emitted := s.enc.emitted ++ encGroup s.enc.acc s.enc.cnt.toNat } }) ∧
  ∀ (d : Byte) (s : State), s.enc.acc = 0x00004D → s.enc.cnt = 1 →
    ∃ t, exec (.encEnd d) s = next t ∧ EncIdle t.enc ∧
      t.enc.emitted = s.enc.emitted ++ [0x54, 0x51, 0x3D, 0x3D]

/-- R107: the encoder's transition table, one clause a row. -/
def Obligations.EncoderTransitionTable : Prop :=
  (∀ (b : Byte) (s : State), s.enc.cnt = 0 → s.enc.acc = 0 →
    ∃ t, exec (.encByte b) s = next t ∧ t.enc.cnt = 1 ∧ t.enc.acc = b.setWidth 24 ∧
      t.enc.emitted = s.enc.emitted) ∧
  (∀ (b x : Byte) (s : State), s.enc.cnt = 1 → s.enc.acc = x.setWidth 24 →
    ∃ t, exec (.encByte b) s = next t ∧ t.enc.cnt = 2 ∧ t.enc.acc = (x ++ b).setWidth 24 ∧
      t.enc.emitted = s.enc.emitted) ∧
  (∀ (b : Byte) (x : BitVec 16) (s : State), s.enc.cnt = 2 → s.enc.acc = x.setWidth 24 →
    ∃ t, exec (.encByte b) s = next t ∧ EncIdle t.enc ∧
      t.enc.emitted = s.enc.emitted ++ encGroup (x ++ b) 3 ∧ (encGroup (x ++ b) 3).length = 4) ∧
  (∀ (d : Byte) (s : State), s.enc.cnt = 0 → s.enc.acc = 0 →
    ∃ t, exec (.encEnd d) s = next t ∧ EncIdle t.enc ∧ t.enc.emitted = s.enc.emitted ∧
      t.enc.out.last = true) ∧
  (∀ (d : Byte) (s : State), s.enc.cnt = 1 →
    ∃ t c0 c1, exec (.encEnd d) s = next t ∧ EncIdle t.enc ∧ t.enc.out.last = true ∧
      encGroup s.enc.acc 1 = [c0, c1, 0x3D, 0x3D] ∧
      t.enc.emitted = s.enc.emitted ++ encGroup s.enc.acc 1) ∧
  ∀ (d : Byte) (s : State), s.enc.cnt = 2 →
    ∃ t c0 c1 c2, exec (.encEnd d) s = next t ∧ EncIdle t.enc ∧ t.enc.out.last = true ∧
      encGroup s.enc.acc 2 = [c0, c1, c2, 0x3D] ∧
      t.enc.emitted = s.enc.emitted ++ encGroup s.enc.acc 2

/-- From R106: the encoder is total, every command word giving a next state in every state, and
`enc_cmd_ready` is 1 in every cycle outside reset. That it is so before the first reset too, where R193
leaves the pins unspecified, is the model's choice (log entry 13); so is the open count that `ENC.BYTE`
leaves at `ENC.CNT` = 3 (log entry 7). -/
def Obligations.EncoderIsTotal : Prop :=
  (∀ (w : CmdWord) (s : State), ∃ t, exec (decode .enc w) s = next t) ∧
  ∀ p : PinsIn, p.rst = false → encCmdReady p = true

/-- R108: the shape of every encoder emission. -/
def Obligations.EncoderEmissionShape : Prop :=
  ∀ (i : Instr) (s t : State), i.port = .enc → exec i s = next t →
    t.enc.emitted = s.enc.emitted ∨
    ∃ c0 c1 c2 c3 : Byte,
      t.enc.emitted = s.enc.emitted ++ [c0, c1, c2, c3] ∧
      (invRom c0).valid = true ∧ (invRom c1).valid = true ∧ IsTextChar c2 ∧ IsTextChar c3 ∧
      (c2 = 0x3D ∨ c3 = 0x3D → ∃ d, i = .encEnd d) ∧
      (c2 = 0x3D → c3 = 0x3D)

/-- The frame of `ENC.BYTE` and `ENC.END` (R8, R24): no decoder register, output or flag, nothing the
driver will drive; and what was emitted stays. -/
def Obligations.EncoderFrame : Prop :=
  ∀ (i : Instr) (s t : State), i.port = .enc → exec i s = next t →
    t.dec = s.dec ∧ t.wasReset = s.wasReset ∧ t.input = s.input ∧ s.enc.emitted <+: t.enc.emitted

/-- R21, R22: what `ENC.ACC` and `ENC.CNT` hold between steps. After any number of `ENC.BYTE` from the
idle state they are the bytes of the open group, first most significant, and their number. -/
def Obligations.EncoderHoldsTheOpenGroup : Prop :=
  ∀ (p : List Byte) (s : State), EncIdle s.enc →
    ∃ t, execAll (p.map Instr.encByte) s = next t ∧
      t.enc.acc = concatBytes (p.drop (3 * (p.length / 3))) ∧
      t.enc.cnt.toNat = p.length % 3

/-! ### The decoder's operations -/

/-- R122: `DEC.CHAR c`, symbol case: its next state, the shift that loses no bit, three bytes exactly at
a full chunk, index 0 on a zero accumulator, and the worked example. -/
def Obligations.DecCharSymbolCase : Prop :=
  (∀ (c : Byte) (s : State), s.dec.fault = false → s.dec.skip = false →
    (invRom c).valid = true → s.dec.cnt.toNat ≤ 3 →
    exec (.decChar c) s = next
      { s with dec :=
          if s.dec.pos = 3 then
            { s.dec with
              acc := 0, cnt := 0, pos := 0, skip := false,
              out := decWord (decChunk ((s.dec.acc <<< 6) ||| (invRom c).idx.setWidth 24) (s.dec.cnt.toNat + 1)) false,
              emitted := s.dec.emitted ++
                decChunk ((s.dec.acc <<< 6) ||| (invRom c).idx.setWidth 24) (s.dec.cnt.toNat + 1) }
          else
            { s.dec with
              acc := (s.dec.acc <<< 6) ||| (invRom c).idx.setWidth 24, cnt := s.dec.cnt + 1,
              pos := s.dec.pos + 1, out := { count := 0, last := false, data := 0 } } }) ∧
  (∀ (c : Byte) (s : State), DecInv s.dec → s.dec.fault = false → s.dec.skip = false →
    (invRom c).valid = true →
    ((s.dec.acc <<< 6) ||| (invRom c).idx.setWidth 24).toNat = s.dec.acc.toNat * 2 ^ 6 + (invRom c).idx.toNat ∧
    (s.dec.pos = 3 → ∃ t b0 b1 b2, exec (.decChar c) s = next t ∧ t.dec.out.count = 3 ∧
      t.dec.emitted = s.dec.emitted ++ [b0, b1, b2])) ∧
  (∀ s : State, DecIdle s.dec →
    ∃ t, exec (.decChar 0x41) s = next t ∧ t.dec.acc = 0 ∧ t.dec.cnt = 1) ∧
  ∀ s : State, s.dec.acc = 0x013585 → s.dec.cnt = 3 → s.dec.pos = 3 → s.dec.skip = false →
    s.dec.fault = false →
    ∃ t, exec (.decChar 0x75) s = next t ∧ t.dec.emitted = s.dec.emitted ++ [0x4D, 0x61, 0x6E] ∧
      t.dec.acc = 0 ∧ t.dec.cnt = 0 ∧ t.dec.pos = 0 ∧ t.dec.skip = false

/-- R123: `DEC.CHAR c`, skipped case: the character is ignored whatever it is. -/
def Obligations.DecCharSkippedCase : Prop :=
  (∀ (c : Byte) (s : State), s.dec.fault = false → s.dec.skip = true → s.dec.cnt.toNat ≤ 4 →
    exec (.decChar c) s = next
      { s with dec :=
          if s.dec.pos = 3 then
            { s.dec with
              acc := 0, cnt := 0, pos := 0, skip := false,
              out := decWord (decChunk s.dec.acc s.dec.cnt.toNat) false,
              emitted := s.dec.emitted ++ decChunk s.dec.acc s.dec.cnt.toNat }
          else
            { s.dec with pos := s.dec.pos + 1, out := { count := 0, last := false, data := 0 } } }) ∧
  (∀ (c : Byte) (s : State), DecInv s.dec → s.dec.fault = false → s.dec.skip = true →
    ∃ t, exec (.decChar c) s = next t ∧ t.dec.emitted.length ≤ s.dec.emitted.length + 1) ∧
  ∀ s : State, s.dec.acc = 0x0004D0 → s.dec.cnt = 2 → s.dec.pos = 3 → s.dec.skip = true →
    s.dec.fault = false →
    ∃ t, exec (.decChar 0x75) s = next t ∧ t.dec.emitted = s.dec.emitted ++ [0x4D] ∧
      t.dec.acc = 0 ∧ t.dec.cnt = 0 ∧ t.dec.pos = 0 ∧ t.dec.skip = false

/-- From R124 and R174: `DEC.CHAR c`, invalid case: the fault is taken in the same step, it writes the three
fault fields and nothing else, emits nothing, shows on the pins from the next cycle on and makes the unit
refuse commands; 191 codes other than `=` do this. That the four pins follow the registers before the
first reset too, where R193 leaves the pins unspecified, is the model's choice (log entry 13); so is
`c` = 0x3D, the ill-formed term that no word decodes to (log entry 10). -/
def Obligations.DecCharInvalidCase : Prop :=
  (∀ (c : Byte) (s : State), s.dec.fault = false → s.dec.skip = false → (invRom c).valid = false →
    ∃ t, exec (.decChar c) s = next t ∧
      t = { s with dec :=
              { s.dec with
                fault := true, fcode := .invalidCharacter, fchar := c,
                out := { count := 0, last := false, data := 0 } } } ∧
      ∀ (p : PinsIn) (u : State),
        (pinsOut p t u).decFault = true ∧ (pinsOut p t u).decFcode = 1 ∧
        (pinsOut p t u).decFchar = c ∧ (pinsOut p t u).decCmdReady = false) ∧
  ((List.range 256).filter fun n =>
    !(invRom (BitVec.ofNat 8 n)).valid && BitVec.ofNat 8 n != padChar).length = 191

/-- R125: `DEC.PAD`: its next state, at most two bytes, and the worked example. -/
def Obligations.DecPadResult : Prop :=
  (∀ w : CmdWord, w = 0x03D → decode .dec w = .decPad) ∧
  (∀ s : State, s.dec.fault = false → s.dec.cnt.toNat ≤ 4 →
    exec .decPad s = next
      { s with dec :=
          if s.dec.pos = 3 then
            { s.dec with
              acc := 0, cnt := 0, pos := 0, skip := false,
              out := decWord (decChunk s.dec.acc s.dec.cnt.toNat) false,
              emitted := s.dec.emitted ++ decChunk s.dec.acc s.dec.cnt.toNat }
          else
            { s.dec with
              skip := true, pos := s.dec.pos + 1, out := { count := 0, last := false, data := 0 } } }) ∧
  (∀ s : State, DecInv s.dec → s.dec.fault = false →
    ∃ t, exec .decPad s = next t ∧
      t.dec.out.count.toNat = (if s.dec.pos = 3 then s.dec.cnt.toNat - 1 else 0) ∧
      t.dec.out.last = false) ∧
  ∀ s : State, s.dec.acc = 0x013584 → s.dec.cnt = 3 → s.dec.pos = 3 → s.dec.skip = false →
    s.dec.fault = false →
    ∃ t, exec .decPad s = next t ∧ t.dec.emitted = s.dec.emitted ++ [0x4D, 0x61] ∧
      t.dec.acc = 0 ∧ t.dec.cnt = 0 ∧ t.dec.pos = 0 ∧ t.dec.skip = false

/-- R126: `DEC.END`: its encoding, its next state for every value of the ignored data bits, the count on
the pins, and the worked example. -/
def Obligations.DecEndResult : Prop :=
  (∀ w : CmdWord, w.msb = true → decode .dec w = .decEnd (w.setWidth 8)) ∧
  (∀ (d : Byte) (s : State), s.dec.fault = false → s.dec.cnt.toNat ≤ 4 →
    exec (.decEnd d) s = next
      { s with dec :=
          { s.dec with
            acc := 0, cnt := 0, pos := 0, skip := false,
            out := decWord (decChunk s.dec.acc s.dec.cnt.toNat) true,
            emitted := s.dec.emitted ++ decChunk s.dec.acc s.dec.cnt.toNat } }) ∧
  (∀ (d : Byte) (s : State), DecInv s.dec → s.dec.fault = false →
    ∃ t, exec (.decEnd d) s = next t ∧ DecIdle t.dec ∧
      t.dec.out.count.toNat = s.dec.cnt.toNat - 1 ∧ t.dec.out.last = true) ∧
  ∀ (d : Byte) (s : State), s.dec.acc = 0x0004D0 → s.dec.cnt = 2 → s.dec.pos = 2 → s.dec.skip = false →
    s.dec.fault = false →
    ∃ t, exec (.decEnd d) s = next t ∧ t.dec.emitted = s.dec.emitted ++ [0x4D] ∧
      t.dec.acc = 0 ∧ t.dec.cnt = 0 ∧ t.dec.pos = 0 ∧ t.dec.skip = false

/-- From R30, R122, R123, R125, R126: `DEC.POS` counts the characters received in the open chunk: every data
command that does not fault adds one, the one at 3 returns it to 0, and `DEC.END` and reset clear it. -/
def Obligations.PositionCountsEveryCharacter : Prop :=
  (∀ (i : Instr) (s t : State), (i = .decPad ∨ ∃ c, i = .decChar c) → s.dec.fault = false →
    exec i s = next t → t.dec.fault = false →
    t.dec.pos.toNat = (s.dec.pos.toNat + 1) % 4) ∧
  (∀ (d : Byte) (s t : State), s.dec.fault = false → exec (.decEnd d) s = next t → t.dec.pos = 0) ∧
  ∀ s t : State, (nextPins s).rst = true → step s = next t → t.dec.pos = 0

/-- R31: `DEC.SKIP` is set by `DEC.PAD` while the chunk stays open, nothing else sets it, and every chunk
close clears it. -/
def Obligations.SkipIsSetByPadOnly : Prop :=
  (∀ s : State, s.dec.fault = false → s.dec.pos ≠ 3 →
    ∃ t, exec .decPad s = next t ∧ t.dec.skip = true) ∧
  (∀ (i : Instr) (s t : State), i ≠ .decPad → exec i s = next t → t.dec.skip = true →
    s.dec.skip = true) ∧
  (∀ (i : Instr) (s t : State), (i = .decPad ∨ ∃ c, i = .decChar c) → s.dec.fault = false →
    s.dec.pos = 3 → exec i s = next t → t.dec.fault = false → t.dec.skip = false) ∧
  ∀ (d : Byte) (s t : State), s.dec.fault = false → exec (.decEnd d) s = next t → t.dec.skip = false

/-- The frame of `DEC.CHAR`, `DEC.PAD` and `DEC.END` (R8, R37): nothing of the encoder and nothing the
driver will drive; what was emitted stays; and either the fault fields stay, or the step is the
invalid case and the accumulator, the counters, `SKIP` and the output sequence stay. -/
def Obligations.DecoderFrame : Prop :=
  ∀ (i : Instr) (s t : State), i.port = .dec → exec i s = next t →
    t.enc = s.enc ∧ t.wasReset = s.wasReset ∧ t.input = s.input ∧ s.dec.emitted <+: t.dec.emitted ∧
    ((t.dec.fault = s.dec.fault ∧ t.dec.fcode = s.dec.fcode ∧ t.dec.fchar = s.dec.fchar) ∨
     ((∃ c, i = .decChar c ∧ (invRom c).valid = false) ∧ s.dec.skip = false ∧ s.dec.fault = false ∧
      t.dec.acc = s.dec.acc ∧ t.dec.cnt = s.dec.cnt ∧ t.dec.pos = s.dec.pos ∧ t.dec.skip = s.dec.skip ∧
      t.dec.emitted = s.dec.emitted))

/-- R28, R29: what `DEC.ACC` and `DEC.CNT` hold between steps. After the data commands of a text whose
consumed characters are all in the alphabet, from the idle state, they are the indices of the
characters consumed in the open chunk, first most significant, and their number. -/
def Obligations.DecoderHoldsTheOpenChunk : Prop :=
  ∀ (x : List Byte) (s : State), DecIdle s.dec → firstInvalid x = none →
    ∃ t, execAll (x.map charCommand) s = next t ∧ t.dec.fault = false ∧
      t.dec.acc = concatSextets ((consumedOf x (x.length / 4)).map fun c => (invRom c).idx) ∧
      t.dec.cnt.toNat = (consumedOf x (x.length / 4)).length ∧
      t.dec.pos.toNat = x.length % 4 ∧
      t.dec.skip = (chunkOf x (x.length / 4)).contains padChar

/-! ### The fault -/

/-- From R171: `InvalidCharacter` is raised by `DEC.CHAR c` and by no other operation, exactly when `FAULT` is
0, `SKIP` is 0 and the entry of `c` is invalid; it has cause code 1 and records `c`. That `c` = 0x3D, the
ill-formed term that no word decodes to, raises it too is the model's choice (log entry 10). -/
def Obligations.FaultRaisedExactlyWhen : Prop :=
  ∀ (i : Instr) (s t : State), s.dec.fault = false → exec i s = next t →
    (t.dec.fault = true ↔ ∃ c, i = .decChar c ∧ s.dec.skip = false ∧ (invRom c).valid = false) ∧
    (t.dec.fault = true → i = .decChar t.dec.fchar ∧ t.dec.fcode.bits = 1)

/-- From R133 and R91: while `DEC.FAULT` is 1 the decoder accepts no command: ready is 0, no register
changes and nothing is emitted, whatever the driver presents. The first clause, that `exec` of a decoder
instruction then answers a next state in which only the output word has become idle, is the model's
form of this (log entry 9); that `dec_cmd_ready` follows `DEC.FAULT` before the first reset too is log entry
13; the data 0 of the idle output word, where R91 gives the count and `last` only, is log entry 14. -/
def Obligations.DecoderHaltedWhileFaulted : Prop :=
  (∀ (i : Instr) (s : State), i.port = .dec → s.dec.fault = true →
    exec i s = next { s with dec := { s.dec with out := { count := 0, last := false, data := 0 } } }) ∧
  (∀ (p : PinsIn) (s : State), s.dec.fault = true → decCmdReady p s = false) ∧
  ∀ s t : State, s.wasReset = true → s.dec.fault = true → (nextPins s).rst = false →
    step s = next t → t.dec = { s.dec with out := { count := 0, last := false, data := 0 } }

/-- R177: the only way out of the faulted state is reset, which puts `DEC` in the idle state with nothing of
the faulting run left; without reset the fault stays as recorded, so there is no second one. -/
def Obligations.FaultLeftOnlyByReset : Prop :=
  (∀ s t : State, s.dec.fault = true → (nextPins s).rst = false → step s = next t →
    t.dec.fault = true ∧ t.dec.fcode = s.dec.fcode ∧ t.dec.fchar = s.dec.fchar) ∧
  ∀ s : State, (nextPins s).rst = true →
    ∃ t, step s = next t ∧ DecIdle t.dec ∧ t.dec.emitted = []

/-! ### Reset, cycles and acceptance -/

/-- R40: the value of every register right after reset, and the empty output sequences. -/
def Obligations.ResetRegisterValues : Prop :=
  State.reset.enc.acc = 0 ∧ State.reset.enc.cnt = 0 ∧
  State.reset.dec.acc = 0 ∧ State.reset.dec.cnt = 0 ∧ State.reset.dec.pos = 0 ∧
  State.reset.dec.skip = false ∧ State.reset.dec.fault = false ∧ State.reset.dec.fcode.bits = 0 ∧
  State.reset.dec.fchar = 0 ∧ State.reset.enc.emitted = [] ∧ State.reset.dec.emitted = []

/-- From R190, R191, R192: a cycle with `rst` = 1 from any state, whatever commands are presented: neither
port is ready, both output words are idle, and the block is in the reset state. The data 0 of the two
output words, where R190 gives `valid`, the count and `last` only, is the model's choice (log entry 14), and
so are the two fields of its own (log entries 2 and 6). -/
def Obligations.ResetCycleFromAnyState : Prop :=
  ∀ s : State, (nextPins s).rst = true →
    encCmdReady (nextPins s) = false ∧ decCmdReady (nextPins s) s = false ∧
    ∃ t, step s = next t ∧ t = { State.reset with input := s.input.tail } ∧
      EncIdle t.enc ∧ DecIdle t.dec ∧ t.enc.emitted = [] ∧ t.dec.emitted = [] ∧
      t.enc.out = { valid := false, last := false, data := 0 } ∧
      t.dec.out = { count := 0, last := false, data := 0 }

/-- The invariants of R23 and R36, with those of the output words and the encoder's output sequence, hold
right after reset. The data 0 of the output words there is the model's choice (log entry 14). -/
def Obligations.InvariantAtReset : Prop :=
  BlockInv State.reset

/-- The invariants of R23 and R36 (R86, R87, R108 for the outputs) are kept by every step from every
state that meets them. That the data of an output word is 0 after a cycle in which its unit takes no step,
which R86 and R87 do not say, is the model's choice (log entry 14). -/
def Obligations.InvariantKeptByStep : Prop :=
  ∀ s t : State, BlockInv s → step s = next t → BlockInv t

/-- Progress, in the model's form: `exec` of every instruction answers a next state in every state, and after
reset every cycle does, whatever the pins. For an accepted command this is R84, R106, R173 and R193 ("a
well-defined step function"). Two cases are the model's: R133 and R176 say that a faulted decoder takes
no step, and the model answers a next state in which only its output word is idle (log entry 9,
DEDUCED); on counter values that no rule stores a part of the result is a free value (log entry 7,
DESIGN CHOICE). -/
def Obligations.EveryCycleHasANextState : Prop :=
  (∀ (i : Instr) (s : State), ∃ t, exec i s = next t) ∧
  ∀ s : State, s.wasReset = true → ∃ t, step s = next t ∧ t.wasReset = true

/-- R91: a step runs the decoded command of the port on which it is presented, the other unit's output
word being idle (its data 0 by log entry 14); with commands on both ports it runs both. -/
def Obligations.StepRunsTheAcceptedCommand : Prop :=
  (∀ (s : State) (p : PinsIn) (rest : List PinsIn), s.wasReset = true → s.input = p :: rest →
    p.rst = false → p.encCmdValid = true → p.decCmdValid = false →
    step s = andThen (exec (decode .enc p.encCmd) { s with input := rest })
      (fun t => next (t.withDec t.dec.quiet))) ∧
  (∀ (s : State) (p : PinsIn) (rest : List PinsIn), s.wasReset = true → s.input = p :: rest →
    p.rst = false → p.encCmdValid = false → p.decCmdValid = true → s.dec.fault = false →
    step s = exec (decode .dec p.decCmd) { s with input := rest, enc := s.enc.quiet }) ∧
  ∀ (s : State) (p : PinsIn) (rest : List PinsIn), s.wasReset = true → s.input = p :: rest →
    p.rst = false → p.encCmdValid = true → p.decCmdValid = true → s.dec.fault = false →
    step s = andThen (exec (decode .enc p.encCmd) { s with input := rest })
      (exec (decode .dec p.decCmd))

/-- The model's reading of a table word (log entry 1): where it gives an instruction, the next step runs
that instruction from the same state, the other unit's output word being idle (its data 0 by log entry
14). -/
def Obligations.FetchWordIsRunByTheNextStep : Prop :=
  ∀ (nbits w : Nat) (i : Instr) (s : State), decodeTableWord nbits w = some i → s.wasReset = true →
    (i.port = .enc → step (s.withFetchWord nbits w) =
      andThen (exec i s) (fun t => next (t.withDec t.dec.quiet))) ∧
    (i.port = .dec → step (s.withFetchWord nbits w) = exec i (s.withEnc s.enc.quiet))

/-- R186: a cycle in which no command is offered changes no register and emits nothing. The data 0 of the
output words, where R91 gives `valid`, the count and `last` only, is the model's choice (log entry 14). -/
def Obligations.IdleCycleKeepsEverything : Prop :=
  ∀ s : State, s.wasReset = true → (nextPins s).rst = false → (nextPins s).encCmdValid = false →
    (nextPins s).decCmdValid = false →
    step s = next
      { s with
        enc := { s.enc with out := { valid := false, last := false, data := 0 } },
        dec := { s.dec with out := { count := 0, last := false, data := 0 } },
        input := s.input.tail }

/-- R193 and 93 U2: a command presented before the first reset has no meaning, by name. -/
def Obligations.NoMeaningBeforeReset : Prop :=
  ∀ s : State, s.wasReset = false → (nextPins s).rst = false →
    ((nextPins s).encCmdValid = true ∨ (nextPins s).decCmdValid = true) →
    step s = refused .beforeReset

/-- R91: in a cycle in which a unit accepts no command (none presented, or `dec_cmd_ready` = 0) it keeps
its registers and its output sequence and its output word is idle, whatever the other unit does. The data 0
of that word, where R91 gives `valid`, the count and `last` only, is the model's choice (log entry 14). -/
def Obligations.UnitWithoutACommandKeepsItsState : Prop :=
  (∀ s t : State, s.wasReset = true → (nextPins s).rst = false → (nextPins s).encCmdValid = false →
    step s = next t → t.enc = { s.enc with out := { valid := false, last := false, data := 0 } }) ∧
  ∀ s t : State, s.wasReset = true → (nextPins s).rst = false →
    ((nextPins s).decCmdValid = false ∨ decCmdReady (nextPins s) s = false) →
    step s = next t → t.dec = { s.dec with out := { count := 0, last := false, data := 0 } }

/-- From R38: the three fault pins are the fault registers, are 0 after reset, and the code is 0 or 1. That
they are the registers before the first reset too, where R193 leaves the pins unspecified, is the
model's choice (log entry 13). -/
def Obligations.FaultPinsShowTheFaultRegisters : Prop :=
  (∀ (p : PinsIn) (s t : State),
    (pinsOut p s t).decFault = s.dec.fault ∧ (pinsOut p s t).decFcode = s.dec.fcode.bits ∧
    (pinsOut p s t).decFchar = s.dec.fchar) ∧
  (∀ (p : PinsIn) (t : State),
    (pinsOut p State.reset t).decFault = false ∧ (pinsOut p State.reset t).decFcode = 0 ∧
    (pinsOut p State.reset t).decFchar = 0) ∧
  ∀ c : FCode, c.bits = 0 ∨ c.bits = 1

/-- Counter values that no rule stores (R20, R22, R29), where the spec states no result for a part of the
operation: the instruction runs, and only that part, a counter past its register or the bytes of a
chunk of more than 4, is open (log entry 7). The statement holds for every value of it. -/
def Obligations.CountersPastTheirRangeStillRun : Prop :=
  (∀ (b : Byte) (s : State), s.enc.cnt = 3 →
    ∃ k, exec (.encByte b) s = next
      { s with enc :=
          { acc := (s.enc.acc <<< 8) ||| b.setWidth 24, cnt := k,
            out := { valid := false, last := false, data := 0 }, emitted := s.enc.emitted } }) ∧
  (∀ (c : Byte) (s : State), s.dec.fault = false → s.dec.skip = false → (invRom c).valid = true →
    3 < s.dec.cnt.toNat →
    ∃ (bs : List Byte) (k : BitVec 3), bs.length ≤ 3 ∧ (s.dec.cnt.toNat < 7 → k = s.dec.cnt + 1) ∧
      exec (.decChar c) s = next
        { s with dec :=
            if s.dec.pos = 3 then
              { s.dec with
                acc := 0, cnt := 0, pos := 0, skip := false, out := decWord bs false,
                emitted := s.dec.emitted ++ bs }
            else
              { s.dec with
                acc := (s.dec.acc <<< 6) ||| (invRom c).idx.setWidth 24, cnt := k,
                pos := s.dec.pos + 1, out := { count := 0, last := false, data := 0 } } }) ∧
  (∀ (i : Instr) (s : State), (i = .decPad ∨ (∃ c, i = .decChar c) ∧ s.dec.skip = true) →
    s.dec.fault = false → 4 < s.dec.cnt.toNat →
    ∃ bs : List Byte, bs.length ≤ 3 ∧
      exec i s = next
        { s with dec :=
            if s.dec.pos = 3 then
              { s.dec with
                acc := 0, cnt := 0, pos := 0, skip := false, out := decWord bs false,
                emitted := s.dec.emitted ++ bs }
            else
              { s.dec with
                skip := true, pos := s.dec.pos + 1, out := { count := 0, last := false, data := 0 } } }) ∧
  ∀ (d : Byte) (s : State), s.dec.fault = false → 4 < s.dec.cnt.toNat →
    ∃ bs : List Byte, bs.length ≤ 3 ∧
      exec (.decEnd d) s = next
        { s with dec :=
            { s.dec with
              acc := 0, cnt := 0, pos := 0, skip := false, out := decWord bs true,
              emitted := s.dec.emitted ++ bs } }

/-! ### Two units that share nothing -/

/-- R8: a step of one unit never reads or writes the state of the other: whether it has a next state and
what it does to its unit depend on that unit alone. -/
def Obligations.UnitsAreIndependent : Prop :=
  (∀ (i : Instr) (s s' t : State), i.port = .enc → s'.enc = s.enc → exec i s = next t →
    exec i s' = next { s' with enc := t.enc }) ∧
  ∀ (i : Instr) (s s' t : State), i.port = .dec → s'.dec = s.dec → exec i s = next t →
    exec i s' = next { s' with dec := t.dec }

/-- R8: any interleaving of the two units' steps gives each unit the result of its own steps alone. -/
def Obligations.InterleavingDoesNotMatter : Prop :=
  ∀ (l : List Instr) (s t : State), execAll l s = next t →
    ∃ u v, execAll (l.filter (·.port == .enc)) s = next u ∧
      execAll (l.filter (·.port == .dec)) s = next v ∧ t = { s with enc := u.enc, dec := v.dec }

/-- R201: commands in consecutive cycles, idle gaps, both units at once: none of this changes a result.
After cycles without reset each unit is where its own commands, in order, take it (but for the output
word of the last cycle). -/
def Obligations.CyclesRunTheCommandsPresented : Prop :=
  ∀ (ps rest : List PinsIn) (s : State), s.wasReset = true → s.input = ps ++ rest →
    (∀ p ∈ ps, p.rst = false) →
    ∃ t u v, Host.Core.run Sys2Proof.core ps.length s = next t ∧
      execAll (encCommandsOf ps) s = next u ∧ execAll (decCommandsOf ps) s = next v ∧
      t.enc.quiet = u.enc.quiet ∧ t.dec.quiet = v.dec.quiet ∧ t.input = rest

/-! ### Output words -/

/-- R63, R86, R87, R88: what the output word of a step carries is what the step appends to the output
sequence, lane 0 first, and `last` marks an accepted `END`. -/
def Obligations.OutputWordCarriesTheEmission : Prop :=
  (∀ (i : Instr) (s t : State), i.port = .enc → exec i s = next t →
    ∃ cs : List Byte, t.enc.emitted = s.enc.emitted ++ cs ∧ (cs.length = 0 ∨ cs.length = 4) ∧
      (t.enc.out.valid = true ↔ cs.length = 4) ∧
      (∀ j < 4, t.enc.out.data.extractLsb' (24 - 8 * j) 8 = cs.getD j 0) ∧
      (t.enc.out.last = true ↔ ∃ d, i = .encEnd d)) ∧
  ∀ (i : Instr) (s t : State), i.port = .dec → s.dec.fault = false → exec i s = next t →
    ∃ bs : List Byte, t.dec.emitted = s.dec.emitted ++ bs ∧ t.dec.out.count.toNat = bs.length ∧
      (∀ j < 3, t.dec.out.data.extractLsb' (16 - 8 * j) 8 = bs.getD j 0) ∧
      (t.dec.out.last = true ↔ ∃ d, i = .decEnd d)

/-! ### Whole payloads -/

/-- R150, R151: `encode` is total and equals its closed form; the run, from any state in which `ENC` is
idle, appends exactly that, leaves `ENC` idle and does not touch `DEC`. -/
def Obligations.EncodeRunClosedForm : Prop :=
  (∀ p : List Byte, encodePayload p = some (encodeClosed p)) ∧
  ∀ (p : List Byte) (s : State), EncIdle s.enc →
    ∃ t, execAll (encodeCommands p) s = next t ∧ EncIdle t.enc ∧ t.dec = s.dec ∧
      t.enc.emitted = s.enc.emitted ++ encodeClosed p

/-- R152, R153: `decode` equals its closed form; the run, from any state in which `DEC` is idle, either
ends idle with exactly those bytes, or is left faulted with the first invalid consumed character
and the bytes of the chunks before it. -/
def Obligations.DecodeRunClosedForm : Prop :=
  (∀ x : List Byte, decodeText x = some (decodeClosed x)) ∧
  ∀ (x : List Byte) (s : State), DecIdle s.dec →
    ∃ t, execAll (decodeCommands x) s = next t ∧ t.enc = s.enc ∧
      (∀ b, decodeClosed x = .bytes b → DecIdle t.dec ∧ t.dec.emitted = s.dec.emitted ++ b) ∧
      (∀ c, decodeClosed x = .invalidCharacter c →
        t.dec.fault = true ∧ t.dec.fcode.bits = 1 ∧ t.dec.fchar = c ∧
        t.dec.emitted = s.dec.emitted ++ decodeEmitted x)

/-- R158: for all byte sequences P, `decode(encode(P)) == P`. -/
def Obligations.RoundTripOfPayloads : Prop :=
  ∀ p : List Byte, ∃ x, encodePayload p = some x ∧ decodeText x = some (.bytes p)

/-- R154: the length of the encoded text is `4 * ceil(L / 3)`. -/
def Obligations.EncodedLengthLaw : Prop :=
  ∀ p : List Byte, ∃ x, encodePayload p = some x ∧ x.length = 4 * ((p.length + 2) / 3)

/-- R155: the number of trailing `=` by `length(P) mod 3`, and no `=` anywhere else. -/
def Obligations.EncodedPaddingLaw : Prop :=
  ∀ p : List Byte, ∃ body,
    encodePayload p = some (body ++ List.replicate
      (if p.length % 3 = 0 then 0 else if p.length % 3 = 1 then 2 else 1) 0x3D) ∧
    (0x3D : Byte) ∉ body

/-- R156: every non-padding character of the encoded text is in the alphabet, and every character is
below 0x80. -/
def Obligations.EncodedAlphabetClosure : Prop :=
  ∀ p : List Byte, ∃ x, encodePayload p = some x ∧
    ∀ c ∈ x, (c ≠ 0x3D → ∃ i, alphabet i = c) ∧ c.toNat < 0x80

/-- R157: empty input, as functions and as a lone `END` in the idle state. -/
def Obligations.EmptyInputEmitsNothing : Prop :=
  encodePayload [] = some [] ∧ decodeText [] = some (.bytes []) ∧
  (∀ (d : Byte) (s : State), EncIdle s.enc →
    ∃ t, exec (.encEnd d) s = next t ∧ t.enc.emitted = s.enc.emitted) ∧
  ∀ (d : Byte) (s : State), DecIdle s.dec →
    ∃ t, exec (.decEnd d) s = next t ∧ t.dec.emitted = s.dec.emitted

/-- R160: the length of a decode, and its value for a well-formed text. -/
def Obligations.DecodedLength : Prop :=
  (∀ x b : List Byte, decodeText x = some (.bytes b) →
    b.length = ((chunkNumbers x).map fun k => (consumedOf x k).length - 1).sum) ∧
  ∀ (body b : List Byte) (k : Nat), k ≤ 2 → (0x3D : Byte) ∉ body → (body.length + k) % 4 = 0 →
    decodeText (body ++ List.replicate k 0x3D) = some (.bytes b) →
    b.length = 3 * (body.length + k) / 4 - k

/-- R161: `encode(decode(T)) = T` for an encoder output, and three texts for which it fails: `TR==`,
`TQ` and `TQ=u` all decode to `M`, which encodes to `TQ==`. -/
def Obligations.ReencodingAnEncoderOutput : Prop :=
  (∀ p x : List Byte, encodePayload p = some x →
    reencodeText x = some x ∧ ∃ b, decodeText x = some (.bytes b) ∧ encodePayload b = some x) ∧
  (decodeText [0x54, 0x52, 0x3D, 0x3D] = some (.bytes [0x4D]) ∧
    reencodeText [0x54, 0x52, 0x3D, 0x3D] = some [0x54, 0x51, 0x3D, 0x3D]) ∧
  (decodeText [0x54, 0x51] = some (.bytes [0x4D]) ∧
    reencodeText [0x54, 0x51] = some [0x54, 0x51, 0x3D, 0x3D]) ∧
  (decodeText [0x54, 0x51, 0x3D, 0x75] = some (.bytes [0x4D]) ∧
    reencodeText [0x54, 0x51, 0x3D, 0x75] = some [0x54, 0x51, 0x3D, 0x3D]) ∧
  encodePayload [0x4D] = some [0x54, 0x51, 0x3D, 0x3D]

/-- R162: runs do not interfere. Whatever the other unit does in between, a whole run of `ENC` that starts
idle appends its `encode` and leaves `ENC` idle; a whole run of `DEC` that does not fault appends its
`decode` and leaves `DEC` idle. -/
def Obligations.RunsDoNotInterfere : Prop :=
  (∀ (p : List Byte) (l : List Instr) (s t : State), EncIdle s.enc →
    l.filter (·.port == .enc) = encodeCommands p → execAll l s = next t →
    EncIdle t.enc ∧ ∃ x, encodePayload p = some x ∧ t.enc.emitted = s.enc.emitted ++ x) ∧
  ∀ (x b : List Byte) (l : List Instr) (s t : State), DecIdle s.dec → decodeText x = some (.bytes b) →
    l.filter (·.port == .dec) = decodeCommands x → execAll l s = next t →
    DecIdle t.dec ∧ t.dec.emitted = s.dec.emitted ++ b

/-- R7: splitting a payload after a multiple of 3 bytes, or a text after a multiple of 4 characters, and
concatenating the results changes nothing. -/
def Obligations.SplittingAtWholeGroups : Prop :=
  (∀ p q : List Byte, p.length % 3 = 0 →
    ∃ x y, encodePayload p = some x ∧ encodePayload q = some y ∧ encodePayload (p ++ q) = some (x ++ y)) ∧
  ∀ x y b b' : List Byte, x.length % 4 = 0 → decodeText x = some (.bytes b) →
    decodeText y = some (.bytes b') → decodeText (x ++ y) = some (.bytes (b ++ b'))
end

