-- ==== Sys2Proof/Laws/State.lean ====
section
/-! SUPPORT. One lemma per field per update of the state and of a unit. -/

namespace Sys2Proof.Machine

/-! ### The fixed sizes -/

@[simp] theorem Config.encGroup_eq : Config.encGroup = 3 := rfl
@[simp] theorem Config.encChars_eq : Config.encChars = 4 := rfl
@[simp] theorem Config.decChunk_eq : Config.decChunk = 4 := rfl
@[simp] theorem Config.lastPos_eq : Config.lastPos = 3 := rfl
@[simp] theorem Config.decLanes_eq : Config.decLanes = 3 := rfl

/-! ### The block -/

@[simp] theorem State.withEnc_enc (s : State) (u : EncUnit) : (s.withEnc u).enc = u := rfl
@[simp] theorem State.withEnc_dec (s : State) (u : EncUnit) : (s.withEnc u).dec = s.dec := rfl
@[simp] theorem State.withEnc_wasReset (s : State) (u : EncUnit) :
    (s.withEnc u).wasReset = s.wasReset := rfl
@[simp] theorem State.withEnc_input (s : State) (u : EncUnit) : (s.withEnc u).input = s.input := rfl

@[simp] theorem State.withDec_enc (s : State) (u : DecUnit) : (s.withDec u).enc = s.enc := rfl
@[simp] theorem State.withDec_dec (s : State) (u : DecUnit) : (s.withDec u).dec = u := rfl
@[simp] theorem State.withDec_wasReset (s : State) (u : DecUnit) :
    (s.withDec u).wasReset = s.wasReset := rfl
@[simp] theorem State.withDec_input (s : State) (u : DecUnit) : (s.withDec u).input = s.input := rfl

@[simp] theorem takePins_enc (s : State) : (takePins s).enc = s.enc := rfl
@[simp] theorem takePins_dec (s : State) : (takePins s).dec = s.dec := rfl
@[simp] theorem takePins_wasReset (s : State) : (takePins s).wasReset = s.wasReset := rfl
@[simp] theorem takePins_input (s : State) : (takePins s).input = s.input.tail := rfl

@[simp] theorem applyReset_enc (s : State) : (applyReset s).enc = EncUnit.reset := rfl
@[simp] theorem applyReset_dec (s : State) : (applyReset s).dec = DecUnit.reset := rfl
@[simp] theorem applyReset_wasReset (s : State) : (applyReset s).wasReset = true := rfl
@[simp] theorem applyReset_input (s : State) : (applyReset s).input = s.input := rfl

@[simp] theorem decNotAccepted_enc (s : State) : (decNotAccepted s).enc = s.enc := rfl
@[simp] theorem decNotAccepted_dec (s : State) : (decNotAccepted s).dec = s.dec.quiet := rfl
@[simp] theorem decNotAccepted_wasReset (s : State) : (decNotAccepted s).wasReset = s.wasReset := rfl
@[simp] theorem decNotAccepted_input (s : State) : (decNotAccepted s).input = s.input := rfl

@[simp] theorem raiseInvalidCharacter_enc (c : Byte) (s : State) :
    (raiseInvalidCharacter c s).enc = s.enc := rfl
@[simp] theorem raiseInvalidCharacter_dec (c : Byte) (s : State) :
    (raiseInvalidCharacter c s).dec = s.dec.quiet.recordFault .invalidCharacter c := rfl
@[simp] theorem raiseInvalidCharacter_wasReset (c : Byte) (s : State) :
    (raiseInvalidCharacter c s).wasReset = s.wasReset := rfl
@[simp] theorem raiseInvalidCharacter_input (c : Byte) (s : State) :
    (raiseInvalidCharacter c s).input = s.input := rfl

/-! ### The encoder unit -/

@[simp] theorem EncUnit.hold_acc (u : EncUnit) (a : Acc) (n : Nat) : (u.hold a n).acc = a := rfl
@[simp] theorem EncUnit.hold_cnt (u : EncUnit) (a : Acc) (n : Nat) :
    (u.hold a n).cnt = encCntFor a n := rfl
@[simp] theorem EncUnit.hold_out (u : EncUnit) (a : Acc) (n : Nat) :
    (u.hold a n).out = EncOut.idle := rfl
@[simp] theorem EncUnit.hold_emitted (u : EncUnit) (a : Acc) (n : Nat) :
    (u.hold a n).emitted = u.emitted := rfl

@[simp] theorem EncUnit.close_acc (u : EncUnit) (cs : List Byte) (l : Bool) :
    (u.close cs l).acc = 0 := rfl
@[simp] theorem EncUnit.close_cnt (u : EncUnit) (cs : List Byte) (l : Bool) :
    (u.close cs l).cnt = 0 := rfl
@[simp] theorem EncUnit.close_out (u : EncUnit) (cs : List Byte) (l : Bool) :
    (u.close cs l).out = encWord cs l := rfl
@[simp] theorem EncUnit.close_emitted (u : EncUnit) (cs : List Byte) (l : Bool) :
    (u.close cs l).emitted = u.emitted ++ cs := rfl

@[simp] theorem EncUnit.quiet_acc (u : EncUnit) : u.quiet.acc = u.acc := rfl
@[simp] theorem EncUnit.quiet_cnt (u : EncUnit) : u.quiet.cnt = u.cnt := rfl
@[simp] theorem EncUnit.quiet_out (u : EncUnit) : u.quiet.out = EncOut.idle := rfl
@[simp] theorem EncUnit.quiet_emitted (u : EncUnit) : u.quiet.emitted = u.emitted := rfl

/-! ### The decoder unit -/

@[simp] theorem DecUnit.advance_acc (u : DecUnit) (a : Acc) (n : Nat) (k : Bool) :
    (u.advance a n k).acc = a := rfl
@[simp] theorem DecUnit.advance_cnt (u : DecUnit) (a : Acc) (n : Nat) (k : Bool) :
    (u.advance a n k).cnt = decCntFor a u.pos n := rfl
@[simp] theorem DecUnit.advance_pos (u : DecUnit) (a : Acc) (n : Nat) (k : Bool) :
    (u.advance a n k).pos = u.pos + 1 := rfl
@[simp] theorem DecUnit.advance_skip (u : DecUnit) (a : Acc) (n : Nat) (k : Bool) :
    (u.advance a n k).skip = k := rfl
@[simp] theorem DecUnit.advance_fault (u : DecUnit) (a : Acc) (n : Nat) (k : Bool) :
    (u.advance a n k).fault = u.fault := rfl
@[simp] theorem DecUnit.advance_fcode (u : DecUnit) (a : Acc) (n : Nat) (k : Bool) :
    (u.advance a n k).fcode = u.fcode := rfl
@[simp] theorem DecUnit.advance_fchar (u : DecUnit) (a : Acc) (n : Nat) (k : Bool) :
    (u.advance a n k).fchar = u.fchar := rfl
@[simp] theorem DecUnit.advance_out (u : DecUnit) (a : Acc) (n : Nat) (k : Bool) :
    (u.advance a n k).out = DecOut.idle := rfl
@[simp] theorem DecUnit.advance_emitted (u : DecUnit) (a : Acc) (n : Nat) (k : Bool) :
    (u.advance a n k).emitted = u.emitted := rfl

@[simp] theorem DecUnit.close_acc (u : DecUnit) (bs : List Byte) (l : Bool) :
    (u.close bs l).acc = 0 := rfl
@[simp] theorem DecUnit.close_cnt (u : DecUnit) (bs : List Byte) (l : Bool) :
    (u.close bs l).cnt = 0 := rfl
@[simp] theorem DecUnit.close_pos (u : DecUnit) (bs : List Byte) (l : Bool) :
    (u.close bs l).pos = 0 := rfl
@[simp] theorem DecUnit.close_skip (u : DecUnit) (bs : List Byte) (l : Bool) :
    (u.close bs l).skip = false := rfl
@[simp] theorem DecUnit.close_fault (u : DecUnit) (bs : List Byte) (l : Bool) :
    (u.close bs l).fault = u.fault := rfl
@[simp] theorem DecUnit.close_fcode (u : DecUnit) (bs : List Byte) (l : Bool) :
    (u.close bs l).fcode = u.fcode := rfl
@[simp] theorem DecUnit.close_fchar (u : DecUnit) (bs : List Byte) (l : Bool) :
    (u.close bs l).fchar = u.fchar := rfl
@[simp] theorem DecUnit.close_out (u : DecUnit) (bs : List Byte) (l : Bool) :
    (u.close bs l).out = decWord bs l := rfl
@[simp] theorem DecUnit.close_emitted (u : DecUnit) (bs : List Byte) (l : Bool) :
    (u.close bs l).emitted = u.emitted ++ bs := rfl

@[simp] theorem DecUnit.quiet_acc (u : DecUnit) : u.quiet.acc = u.acc := rfl
@[simp] theorem DecUnit.quiet_cnt (u : DecUnit) : u.quiet.cnt = u.cnt := rfl
@[simp] theorem DecUnit.quiet_pos (u : DecUnit) : u.quiet.pos = u.pos := rfl
@[simp] theorem DecUnit.quiet_skip (u : DecUnit) : u.quiet.skip = u.skip := rfl
@[simp] theorem DecUnit.quiet_fault (u : DecUnit) : u.quiet.fault = u.fault := rfl
@[simp] theorem DecUnit.quiet_fcode (u : DecUnit) : u.quiet.fcode = u.fcode := rfl
@[simp] theorem DecUnit.quiet_fchar (u : DecUnit) : u.quiet.fchar = u.fchar := rfl
@[simp] theorem DecUnit.quiet_out (u : DecUnit) : u.quiet.out = DecOut.idle := rfl
@[simp] theorem DecUnit.quiet_emitted (u : DecUnit) : u.quiet.emitted = u.emitted := rfl

@[simp] theorem DecUnit.recordFault_acc (u : DecUnit) (k : FCode) (c : Byte) :
    (u.recordFault k c).acc = u.acc := rfl
@[simp] theorem DecUnit.recordFault_cnt (u : DecUnit) (k : FCode) (c : Byte) :
    (u.recordFault k c).cnt = u.cnt := rfl
@[simp] theorem DecUnit.recordFault_pos (u : DecUnit) (k : FCode) (c : Byte) :
    (u.recordFault k c).pos = u.pos := rfl
@[simp] theorem DecUnit.recordFault_skip (u : DecUnit) (k : FCode) (c : Byte) :
    (u.recordFault k c).skip = u.skip := rfl
@[simp] theorem DecUnit.recordFault_fault (u : DecUnit) (k : FCode) (c : Byte) :
    (u.recordFault k c).fault = true := rfl
@[simp] theorem DecUnit.recordFault_fcode (u : DecUnit) (k : FCode) (c : Byte) :
    (u.recordFault k c).fcode = k := rfl
@[simp] theorem DecUnit.recordFault_fchar (u : DecUnit) (k : FCode) (c : Byte) :
    (u.recordFault k c).fchar = c := rfl
@[simp] theorem DecUnit.recordFault_out (u : DecUnit) (k : FCode) (c : Byte) :
    (u.recordFault k c).out = u.out := rfl
@[simp] theorem DecUnit.recordFault_emitted (u : DecUnit) (k : FCode) (c : Byte) :
    (u.recordFault k c).emitted = u.emitted := rfl

end Sys2Proof.Machine
end

