-- ==== Sys2Proof/Laws/Ops.lean ====
section
/-! SUPPORT. What each shared operation and each meaning can do, said once: cite these instead of
unfolding. -/

namespace Sys2Proof.Machine

/-! ### Outcomes -/

@[simp] theorem andThen_next (s : State) (f : State → Result) : andThen (.next s) f = f s := rfl

/-- A composed step has a next state exactly when both parts have. -/
theorem andThen_eq_next {o : Result} {f : State → Result} {t : State} :
    andThen o f = .next t ↔ ∃ s, o = .next s ∧ f s = .next t := by
  cases o <;> simp [andThen]

/-! ### The close functions -/

/-- A group is written as four characters. -/
theorem encGroup_eq (a : Acc) (n : Nat) :
    encGroup a n =
      [groupChar (justifyBytes a n) n 0, groupChar (justifyBytes a n) n 1,
       groupChar (justifyBytes a n) n 2, groupChar (justifyBytes a n) n 3] := rfl

@[simp] theorem encGroup_length (a : Acc) (n : Nat) : (encGroup a n).length = 4 := rfl

/-- A chunk of `n` characters, `n` at most 4, gives `n - 1` bytes. -/
theorem decChunk_length (a : Acc) {n : Nat} (h : n ≤ 4) : (decChunk a n).length = n - 1 := by
  unfold decChunk
  split
  · simp; omega
  · simp

/-- No chunk gives more bytes than an output word has lanes. -/
theorem decChunk_length_le (a : Acc) (n : Nat) : (decChunk a n).length ≤ 3 := by
  by_cases h : n ≤ 4
  · rw [decChunk_length a h]; omega
  · simp [decChunk, h, show ¬ n ≤ 1 by omega]

theorem decChunk_of_le_one (a : Acc) {n : Nat} (h : n ≤ 1) : decChunk a n = [] := by
  simp [decChunk, h]

/-! ### The counters -/

theorem encCntFor_of_lt (a : Acc) {n : Nat} (h : n < 4) : encCntFor a n = BitVec.ofNat 2 n := by
  simp [encCntFor, h]

theorem decCntFor_of_lt (a : Acc) (pos : BitVec 2) {n : Nat} (h : n < 8) :
    decCntFor a pos n = BitVec.ofNat 3 n := by
  simp [decCntFor, h]

/-- Writing back the count that is held leaves it. -/
@[simp] theorem decCntFor_toNat (a : Acc) (pos : BitVec 2) (c : BitVec 3) :
    decCntFor a pos c.toNat = c := by
  rw [decCntFor_of_lt a pos c.isLt]; simp

/-! ### The output words -/

@[simp] theorem encWord_nil (l : Bool) : encWord [] l = { valid := false, last := l, data := 0 } := rfl

@[simp] theorem decWord_nil (l : Bool) : decWord [] l = { count := 0, last := l, data := 0 } := rfl

@[simp] theorem encWord_last (cs : List Byte) (l : Bool) : (encWord cs l).last = l := rfl

@[simp] theorem decWord_last (bs : List Byte) (l : Bool) : (decWord bs l).last = l := rfl

/-- Bit `i` of four lanes laid side by side. -/
theorem getLsbD_lanes4 (a b c d : Byte) (i : Nat) :
    (a ++ b ++ c ++ d : BitVec 32).getLsbD i =
      if i < 8 then d.getLsbD i else if i - 8 < 8 then c.getLsbD (i - 8)
      else if i - 8 - 8 < 8 then b.getLsbD (i - 8 - 8) else a.getLsbD (i - 8 - 8 - 8) := by
  erw [BitVec.getLsbD_append, BitVec.getLsbD_append, BitVec.getLsbD_append]

/-- Bit `i` of three lanes laid side by side. -/
theorem getLsbD_lanes3 (a b c : Byte) (i : Nat) :
    (a ++ b ++ c : BitVec 24).getLsbD i =
      if i < 8 then c.getLsbD i else if i - 8 < 8 then b.getLsbD (i - 8)
      else a.getLsbD (i - 8 - 8) := by
  erw [BitVec.getLsbD_append, BitVec.getLsbD_append]

/-- Lane `j` of the encoder's output word holds symbol `j`. -/
theorem encWord_lane (cs : List Byte) (l : Bool) {j : Nat} (hj : j < 4) :
    (encWord cs l).data.extractLsb' (24 - 8 * j) 8 = cs.getD j 0 := by
  apply BitVec.eq_of_getLsbD_eq
  intro i hi
  rw [BitVec.getLsbD_extractLsb']
  simp only [hi, decide_true, Bool.true_and, encWord, getLsbD_lanes4, lane]
  obtain rfl | rfl | rfl | rfl : j = 0 ∨ j = 1 ∨ j = 2 ∨ j = 3 := by omega
  all_goals (repeat rw [if_neg (by omega)]); try rw [if_pos (by omega)]
  all_goals congr 1; omega

/-- Lane `j` of the decoder's output word holds symbol `j`. -/
theorem decWord_lane (bs : List Byte) (l : Bool) {j : Nat} (hj : j < 3) :
    (decWord bs l).data.extractLsb' (16 - 8 * j) 8 = bs.getD j 0 := by
  apply BitVec.eq_of_getLsbD_eq
  intro i hi
  rw [BitVec.getLsbD_extractLsb']
  simp only [hi, decide_true, Bool.true_and, decWord, getLsbD_lanes3, lane]
  obtain rfl | rfl | rfl : j = 0 ∨ j = 1 ∨ j = 2 := by omega
  all_goals (repeat rw [if_neg (by omega)]); try rw [if_pos (by omega)]
  all_goals congr 1; omega

/-! ### Receiving a character -/

/-- `receive` closes at `POS` = 3 and advances elsewhere. -/
theorem receive_cases (a : Acc) (n : Nat) (k : Bool) (s : State) :
    (s.dec.pos = 3 ∧ receive a n k s = s.withDec (s.dec.close (decChunk a n) false)) ∨
    (s.dec.pos ≠ 3 ∧ receive a n k s = s.withDec (s.dec.advance a n k)) := by
  by_cases h : s.dec.pos = 3
  · exact .inl ⟨h, if_pos h⟩
  · exact .inr ⟨h, if_neg h⟩

/-! ### The meanings -/

/-- What `ENC.BYTE` can do: close the group at the third byte, hold it before. -/
theorem execEncByte_next {b : Byte} {s t : State} (h : execEncByte b s = .next t) :
    (s.enc.cnt = 2 ∧ t = s.withEnc (s.enc.close (encGroup (shiftInByte s.enc.acc b) 3) false)) ∨
    (s.enc.cnt ≠ 2 ∧
      t = s.withEnc (s.enc.hold (shiftInByte s.enc.acc b) (s.enc.cnt.toNat + 1))) := by
  simp only [execEncByte, Config.encGroup_eq] at h
  split at h
  · exact .inl ⟨by bv_omega, by simp_all⟩
  · exact .inr ⟨by bv_omega, by simpa using h.symm⟩

/-- What `ENC.END` does. -/
theorem execEncEnd_eq (d : Byte) (s : State) :
    execEncEnd d s = .next (s.withEnc (s.enc.close
      (if s.enc.cnt = 0 then [] else encGroup s.enc.acc s.enc.cnt.toNat) true)) := rfl

/-- What `DEC.CHAR` can do: nothing (faulted), ignore, consume, or take the fault. -/
theorem execDecChar_next {c : Byte} {s t : State} (h : execDecChar c s = .next t) :
    (s.dec.fault = true ∧ t = decNotAccepted s) ∨
    (s.dec.fault = false ∧ s.dec.skip = true ∧
      t = receive s.dec.acc s.dec.cnt.toNat true s) ∨
    (s.dec.fault = false ∧ s.dec.skip = false ∧ (invRom c).valid = true ∧
      t = receive (shiftInSextet s.dec.acc (invRom c).idx) (s.dec.cnt.toNat + 1) false s) ∨
    (s.dec.fault = false ∧ s.dec.skip = false ∧ (invRom c).valid = false ∧
      t = raiseInvalidCharacter c s) := by
  unfold execDecChar decIgnore decSymbol at h
  split at h
  · simp_all
  · split at h
    · simp_all
    · split at h <;> simp_all

/-- What `DEC.PAD` can do: nothing (faulted), or ignore. -/
theorem execDecPad_next {s t : State} (h : execDecPad s = .next t) :
    (s.dec.fault = true ∧ t = decNotAccepted s) ∨
    (s.dec.fault = false ∧ t = receive s.dec.acc s.dec.cnt.toNat true s) := by
  unfold execDecPad decIgnore at h
  split at h <;> simp_all

/-- What `DEC.END` can do: nothing (faulted), or close. -/
theorem execDecEnd_next {d : Byte} {s t : State} (h : execDecEnd d s = .next t) :
    (s.dec.fault = true ∧ t = decNotAccepted s) ∨
    (s.dec.fault = false ∧
      t = s.withDec (s.dec.close (decChunk s.dec.acc s.dec.cnt.toNat) true)) := by
  unfold execDecEnd at h
  split at h <;> simp_all

/-! ### The cycle -/

/-- What a cycle can do: reset, run each unit's part, or (before the first reset) nothing. -/
theorem cycle_next {p : PinsIn} {s t : State} (h : cycle p s = .next t) :
    (p.rst = true ∧ t = applyReset s) ∨
    (p.rst = false ∧ s.wasReset = true ∧ ∃ u, encCycle p s = .next u ∧ decCycle p u = .next t) ∨
    (p.rst = false ∧ s.wasReset = false ∧ t = s) := by
  unfold cycle at h
  split at h
  · simp_all
  · split at h
    · rw [andThen_eq_next] at h
      simp_all
    · split at h <;> simp_all

end Sys2Proof.Machine
end

