-- ==== Sys2Proof/Laws/PerInstr.lean ====
section
/-! SUPPORT. The per-instruction family `RowSelected`: the command word of a well-formed instruction
selects that instruction's row of the opcode map (30_encoding.md R83). -/

namespace Sys2Proof.Laws

/-- The word of a well-formed instruction selects its row. -/
def RowSelected.Statement (i : Instr) : Prop :=
  i.wellFormed = true → rowSelects (opcodeRow i) (encode i) = true

theorem RowSelected.encByte (b : Byte) : RowSelected.Statement (.encByte b) := by
  revert b; unfold RowSelected.Statement; decide

theorem RowSelected.encEnd (data : Byte) : RowSelected.Statement (.encEnd data) := by
  revert data; unfold RowSelected.Statement; decide

theorem RowSelected.decPad : RowSelected.Statement .decPad := by
  unfold RowSelected.Statement; decide

theorem RowSelected.decChar (c : Byte) : RowSelected.Statement (.decChar c) := by
  revert c; unfold RowSelected.Statement; decide

theorem RowSelected.decEnd (data : Byte) : RowSelected.Statement (.decEnd data) := by
  revert data; unfold RowSelected.Statement; decide

end Sys2Proof.Laws
end

