-- ==== Sys2Proof/Tests/Slice0.lean ====
section
/-! SUPPORT. Tests of the model, with expected values from spec/95_test_vectors.md, and a witness for the
hypotheses of every statement. -/

namespace Sys2Proof.Tests

open Sys2Proof Sys2Proof.Machine Host.Outcome

/-! ### States and pins for the tests -/

/-- `ENC(acc, cnt)` in the notation of 95_test_vectors.md. -/
def encAt (acc : Acc) (cnt : BitVec 2) : State :=
  State.reset.withEnc { EncUnit.reset with acc := acc, cnt := cnt }

/-- `DEC(acc, cnt, pos, skip)` in the notation of 95_test_vectors.md. -/
def decAt (acc : Acc) (cnt : BitVec 3) (pos : BitVec 2) (skip : Bool) : State :=
  State.reset.withDec { DecUnit.reset with acc := acc, cnt := cnt, pos := pos, skip := skip }

/-- `DEC(0x0004D0, 2, 2, 0 | 1, 1, 0x21)`: faulted on `!`. -/
def decFaulted : State :=
  State.reset.withDec
    { DecUnit.reset with
      acc := 0x0004D0, cnt := 2, pos := 2, fault := true, fcode := .invalidCharacter, fchar := 0x21 }

/-- `s` with the driver about to drive `ps`. -/
def driven (s : State) (ps : List PinsIn) : State :=
  { s with input := ps }

/-- A cycle with commands on both ports. -/
def bothPorts (e d : CmdWord) : PinsIn :=
  { rst := false, encCmdValid := true, encCmd := e, decCmdValid := true, decCmd := d }

/-- A reset cycle with commands presented on both ports. -/
def resetPins : PinsIn :=
  { rst := true, encCmdValid := true, encCmd := 0x04D, decCmdValid := true, decCmd := 0x054 }

/-- What a test looks at of a next state: the encoder's registers and output sequence. -/
def encView (o : Result) : Option (Acc × BitVec 2 × List Byte × Bool) :=
  (nextState o).map fun s => (s.enc.acc, s.enc.cnt, s.enc.emitted, s.enc.out.last)

/-- What a test looks at of a next state: the decoder's registers and output sequence. -/
def decView (o : Result) : Option (Acc × BitVec 3 × BitVec 2 × Bool × List Byte) :=
  (nextState o).map fun s => (s.dec.acc, s.dec.cnt, s.dec.pos, s.dec.skip, s.dec.emitted)

/-! ### Well-formedness and decoding -/

/-- R121, R92: `DEC.CHAR '='` is no command. -/
theorem test_decChar_pad_ill_formed : (Instr.decChar 0x3D).wellFormed = false := by decide

theorem test_decChar_well_formed : (Instr.decChar 0x3C).wellFormed = true := by decide

/-- R80, R83: `0 bbbbbbbb` with `b` = 0x4D. -/
theorem test_decode_encByte : decode .enc 0b001001101 = .encByte 0x4D := by decide

/-- R83: `1 xxxxxxxx`; 2.8: `0x1FF` is `ENC.END`. -/
theorem test_decode_encEnd : decode .enc 0b111111111 = .encEnd 0xFF := by decide

/-- R83: `0 00111101`. -/
theorem test_decode_decPad : decode .dec 0b000111101 = .decPad := by decide

/-- R83: `0 cccccccc` with `c` = 0x54. -/
theorem test_decode_decChar : decode .dec 0b001010100 = .decChar 0x54 := by decide

/-- 2.8: `0x13D` is `DEC.END`, not `DEC.PAD`. -/
theorem test_decode_decEnd : decode .dec 0b100111101 = .decEnd 0x3D := by decide

/-- R92: the words of the notation. -/
theorem test_encode_words :
    encode (.encByte 0x4D) = 0x04D ∧ encode (.encEnd 0) = 0x100 ∧ encode .decPad = 0x03D ∧
      encode (.decChar 0x54) = 0x054 ∧ encode (.decEnd 0) = 0x100 := by decide

/-- Log entry 1: a table word of 16 bits, on `dec_cmd`, on `enc_cmd`, and with a bit the table lacks. -/
theorem test_table_words :
    decodeTableWord 16 0x03D = some .decPad ∧ decodeTableWord 16 0x24D = some (.encByte 0x4D) ∧
      decodeTableWord 16 0x400 = none := by decide

/-! ### The tables -/

/-- 2.1: boundaries of the Alphabet ROM. -/
theorem test_alphabet :
    alphabet 0 = 0x41 ∧ alphabet 25 = 0x5A ∧ alphabet 26 = 0x61 ∧ alphabet 51 = 0x7A ∧
      alphabet 52 = 0x30 ∧ alphabet 61 = 0x39 ∧ alphabet 62 = 0x2B ∧ alphabet 63 = 0x2F := by decide

/-- 2.1: boundaries of the inverse ROM. -/
theorem test_invRom :
    invRom 0x7A = ⟨true, 51⟩ ∧ invRom 0x39 = ⟨true, 61⟩ ∧ invRom 0x3D = ⟨false, 0⟩ ∧
      invRom 0x40 = ⟨false, 0⟩ ∧ invRom 0x5B = ⟨false, 0⟩ ∧ invRom 0x2D = ⟨false, 0⟩ := by decide

/-- 2.2: fields 62, 63, 0 of a group of two bytes; the padded slot is `=`, the zero field `A`. -/
theorem test_encGroup : encGroup 0x00FBF0 2 = [0x2B, 0x2F, 0x41, 0x3D] := by decide

/-- 2.5: a chunk of three, non-canonical low bits dropped. -/
theorem test_decChunk : decChunk 0x013585 3 = [0x4D, 0x61] := by decide

/-! ### The instructions, one step each (2.3, 2.6) -/

theorem test_encByte_closes :
    encView (exec (.encByte 0xFF) (encAt 0x00FFFF 2)) = some (0, 0, [0x2F, 0x2F, 0x2F, 0x2F], false) := by
  decide

theorem test_encByte_zero_counts :
    encView (exec (.encByte 0x00) (encAt 0 0)) = some (0, 1, [], false) := by decide

theorem test_encEnd_short_group :
    encView (exec (.encEnd 0xFF) (encAt 0x00004D 1)) = some (0, 0, [0x54, 0x51, 0x3D, 0x3D], true) := by
  decide

theorem test_encEnd_empty : encView (exec (.encEnd 0) (encAt 0 0)) = some (0, 0, [], true) := by decide

theorem test_decPad_closes :
    decView (exec .decPad (decAt 0x013584 3 3 false)) = some (0, 0, 0, false, [0x4D, 0x61]) := by decide

theorem test_decPad_skips :
    decView (exec .decPad (decAt 0x0004D0 2 2 false)) = some (0x0004D0, 2, 3, true, []) := by decide

theorem test_decChar_invalid_faults :
    nextState (exec (.decChar 0x21) (decAt 0x0004D0 2 2 false)) = some decFaulted := by decide

theorem test_decChar_skipped_never_faults :
    decView (exec (.decChar 0x21) (decAt 0x0004D0 2 3 true)) = some (0, 0, 0, false, [0x4D]) := by decide

theorem test_decEnd_ignores_data :
    decView (exec (.decEnd 0xAA) (decAt 0x0004D0 2 3 true)) = some (0, 0, 0, false, [0x4D]) := by decide

theorem test_decEnd_drops_one_character :
    decView (exec (.decEnd 0) (decAt 0x000013 1 1 false)) = some (0, 0, 0, false, []) := by decide

/-! ### The cycle (2.9) -/

/-- The first word of Program 2 on `dec_cmd`, fetched from reset. -/
theorem test_step_runs_fetched_word :
    decView (step (State.reset.withFetchWord 16 0x054)) = some (0x000013, 1, 1, false, []) := by decide

/-- The first word of Program 1 on `enc_cmd`, fetched from reset. -/
theorem test_step_runs_fetched_enc_word :
    encView (step (State.reset.withFetchWord 16 0x24D)) = some (0x00004D, 1, [], false) := by decide

/-- A reset cycle clears the fault and accepts nothing. -/
theorem test_reset_cycle :
    nextState (step (driven decFaulted [resetPins])) = some State.reset := by decide

/-! ### Witnesses: states and operands that meet the hypotheses of each statement -/

/-- OpcodeMap: each clause at a word of its own. -/
theorem witness_OpcodeMap :
    (0x0FF : CmdWord) &&& 0x100 = 0x000 ∧ (0x100 : CmdWord) &&& 0x100 = 0x100 ∧
      (0x03D : CmdWord) &&& 0x1FF = 0x03D ∧ (0x03E : CmdWord).setWidth 8 ≠ (0x3D : Byte) := by decide

/-- InverseRomFindsTheIndex, both clauses. -/
theorem witness_InverseRomFindsTheIndex : alphabet 63 = 0x2F ∧ ∀ i : Sextet, alphabet i ≠ 0x3D := by decide

theorem witness_AlphabetCodesDistinct : alphabet 63 = alphabet 63 := rfl

theorem witness_InverseRomByRange : (invRom 0x2B).valid = true := by decide

theorem witness_DecodeOfEncode : (Instr.decChar 0xFF).wellFormed = true := by decide

/-- EncByteResult: word, counter at its bound, invariant at its bound, idle, worked example. -/
theorem witness_EncByteResult :
    (0x0FF : CmdWord).msb = false ∧ (encAt 0x00FFFF 2).enc.cnt.toNat ≤ 2 ∧ EncInv (encAt 0x00FFFF 2).enc ∧
      EncIdle State.reset.enc ∧ (encAt 0x004D61 2).enc.acc = 0x004D61 ∧
      (encAt 0x004D61 2).enc.cnt = 2 := by decide

theorem witness_EncEndResult :
    (0x100 : CmdWord).msb = true ∧ (encAt 0x00004D 1).enc.acc = 0x00004D ∧
      (encAt 0x00004D 1).enc.cnt = 1 := by decide

theorem witness_EncoderTransitionTable :
    (encAt 0 0).enc.cnt = 0 ∧ (encAt 0 0).enc.acc = 0 ∧
      (encAt 0xFF 1).enc.cnt = 1 ∧ (encAt 0xFF 1).enc.acc = (0xFF : Byte).setWidth 24 ∧
      (encAt 0xFFFF 2).enc.cnt = 2 ∧ (encAt 0xFFFF 2).enc.acc = (0xFFFF : BitVec 16).setWidth 24 := by decide

theorem witness_EncoderIsTotal : PinsIn.idle.rst = false := rfl

/-- The steps EncoderEmissionShape, EncoderFrame and OutputWordCarriesTheEmission speak of: with and
without an emission. -/
theorem witness_encoder_steps :
    (Instr.encByte 0x6E).port = .enc ∧ (∃ t, exec (.encByte 0x6E) (encAt 0x004D61 2) = next t) ∧
      ∃ t, exec (.encEnd 0) (encAt 0 0) = next t :=
  ⟨rfl, ⟨_, rfl⟩, ⟨_, rfl⟩⟩

theorem witness_EncoderHoldsTheOpenGroup : EncIdle State.reset.enc := by decide

/-- DecCharSymbolCase, its three hypothesis sets; the closing position is the boundary. -/
theorem witness_DecCharSymbolCase :
    ((decAt 0x013585 3 3 false).dec.fault = false ∧ (decAt 0x013585 3 3 false).dec.skip = false ∧
      (invRom 0x75).valid = true ∧ (decAt 0x013585 3 3 false).dec.cnt.toNat ≤ 3 ∧
      DecInv (decAt 0x013585 3 3 false).dec ∧ (decAt 0x013585 3 3 false).dec.pos = 3) ∧
    DecIdle State.reset.dec := by decide

theorem witness_DecCharSkippedCase :
    (decAt 0x0004D0 2 3 true).dec.fault = false ∧ (decAt 0x0004D0 2 3 true).dec.skip = true ∧
      (decAt 0x0004D0 2 3 true).dec.cnt.toNat ≤ 4 ∧ DecInv (decAt 0x0004D0 2 3 true).dec := by decide

theorem witness_DecCharInvalidCase :
    (decAt 0 0 0 false).dec.fault = false ∧ (decAt 0 0 0 false).dec.skip = false ∧
      (invRom 0xFF).valid = false := by decide

/-- DecPadResult, at the closing position and at the first. -/
theorem witness_DecPadResult :
    (decAt 0x013584 3 3 false).dec.fault = false ∧ (decAt 0x013584 3 3 false).dec.cnt.toNat ≤ 4 ∧
      DecInv (decAt 0x013584 3 3 false).dec ∧ DecInv (decAt 0 0 0 false).dec := by decide

theorem witness_DecEndResult :
    (0x100 : CmdWord).msb = true ∧ (decAt 0x0004D0 2 2 false).dec.fault = false ∧
      (decAt 0x0004D0 2 2 false).dec.cnt.toNat ≤ 4 ∧ DecInv (decAt 0x0004D0 2 2 false).dec := by decide

/-- PositionCountsEveryCharacter and SkipIsSetByPadOnly: a closing `DEC.PAD`, a `DEC.END`, a reset. -/
theorem witness_PositionCountsEveryCharacter :
    (∃ t, exec .decPad (decAt 0x013584 3 3 false) = next t ∧ t.dec.fault = false) ∧
      (∃ t, exec (.decEnd 0) (decAt 0x0004D0 2 2 false) = next t) ∧
      (nextPins (driven decFaulted [resetPins])).rst = true ∧
      ∃ t, step (driven decFaulted [resetPins]) = next t :=
  ⟨⟨_, rfl, rfl⟩, ⟨_, rfl⟩, rfl, ⟨_, rfl⟩⟩

theorem witness_SkipIsSetByPadOnly :
    ((decAt 0x0004D0 2 2 false).dec.fault = false ∧ (decAt 0x0004D0 2 2 false).dec.pos ≠ 3) ∧
    ∃ t, exec (.decChar 0x21) (decAt 0 0 1 true) = next t ∧ t.dec.skip = true :=
  ⟨by decide, _, rfl, rfl⟩

/-- DecoderFrame, FaultRaisedExactlyWhen, OutputWordCarriesTheEmission: a fault and an emission. -/
theorem witness_decoder_steps :
    (∃ t, exec (.decChar 0x21) (decAt 0x0004D0 2 2 false) = next t ∧ t.dec.fault = true) ∧
      ∃ t, exec (.decEnd 0) (decAt 0x0004D0 2 2 false) = next t ∧ t.dec.fault = false :=
  ⟨⟨_, rfl, rfl⟩, ⟨_, rfl, rfl⟩⟩

theorem witness_DecoderHoldsTheOpenChunk :
    DecIdle State.reset.dec ∧ firstInvalid [0x54, 0x51, 0x3D, 0x21, 0x54] = none := by decide

/-- DecoderHaltedWhileFaulted, FaultLeftOnlyByReset: a cycle that presents a command, and a reset. -/
theorem witness_DecoderHaltedWhileFaulted :
    decFaulted.dec.fault = true ∧ decFaulted.wasReset = true ∧
      (nextPins (driven decFaulted [present .dec 0x03D])).rst = false ∧
      ∃ t, step (driven decFaulted [present .dec 0x03D]) = next t :=
  ⟨rfl, rfl, rfl, _, rfl⟩

theorem witness_FaultLeftOnlyByReset :
    (decFaulted.dec.fault = true ∧ (nextPins (driven decFaulted [present .dec 0x100])).rst = false ∧
      ∃ t, step (driven decFaulted [present .dec 0x100]) = next t) ∧
    (nextPins (driven decFaulted [resetPins])).rst = true :=
  ⟨⟨rfl, rfl, _, rfl⟩, rfl⟩

theorem witness_ResetCycleFromAnyState : (nextPins (driven decFaulted [resetPins])).rst = true := rfl

/-- InvariantKeptByStep, EveryCycleHasANextState: a state with open group and chunk, both ports busy. -/
theorem witness_InvariantKeptByStep :
    BlockInv (driven (decAt 0x013585 3 3 false) [bothPorts 0x04D 0x075]) ∧
      (driven (decAt 0x013585 3 3 false) [bothPorts 0x04D 0x075]).wasReset = true ∧
      (nextState (step (driven (decAt 0x013585 3 3 false) [bothPorts 0x04D 0x075]))).isSome = true := by
  decide

/-- StepRunsTheAcceptedCommand: one port, the other, and both. -/
theorem witness_StepRunsTheAcceptedCommand :
    State.reset.wasReset = true ∧ State.reset.dec.fault = false ∧
      (driven State.reset [present .enc 0x04D]).input = present .enc 0x04D :: [] ∧
      (present .enc 0x04D).rst = false ∧ (present .enc 0x04D).encCmdValid = true ∧
      (present .enc 0x04D).decCmdValid = false ∧
      (present .dec 0x054).rst = false ∧ (present .dec 0x054).encCmdValid = false ∧
      (present .dec 0x054).decCmdValid = true ∧
      (bothPorts 0x04D 0x054).encCmdValid = true ∧ (bothPorts 0x04D 0x054).decCmdValid = true := by decide

theorem witness_FetchWordIsRunByTheNextStep :
    (decodeTableWord 16 0x3FF = some (.encEnd 0xFF) ∧ (Instr.encEnd 0xFF).port = .enc) ∧
      (decodeTableWord 16 0x1FF = some (.decEnd 0xFF) ∧ (Instr.decEnd 0xFF).port = .dec) ∧
      State.reset.wasReset = true := by decide

theorem witness_IdleCycleKeepsEverything :
    State.reset.wasReset = true ∧ (nextPins State.reset).rst = false ∧
      (nextPins State.reset).encCmdValid = false ∧ (nextPins State.reset).decCmdValid = false := by decide

theorem witness_NoMeaningBeforeReset :
    ({ driven State.reset [present .dec 0x054] with wasReset := false } : State).wasReset = false ∧
      (nextPins { driven State.reset [present .dec 0x054] with wasReset := false }).rst = false ∧
      (nextPins { driven State.reset [present .dec 0x054] with wasReset := false }).decCmdValid = true := by
  decide

/-- UnitWithoutACommandKeepsItsState: only the other port is busy, and a faulted unit. -/
theorem witness_UnitWithoutACommandKeepsItsState :
    (∃ t, step (driven State.reset [present .dec 0x054]) = next t ∧
      (nextPins (driven State.reset [present .dec 0x054])).encCmdValid = false) ∧
    ∃ t, step (driven decFaulted [bothPorts 0x04D 0x03D]) = next t ∧
      decCmdReady (nextPins (driven decFaulted [bothPorts 0x04D 0x03D]))
        (driven decFaulted [bothPorts 0x04D 0x03D]) = false :=
  ⟨⟨_, rfl, rfl⟩, ⟨_, rfl, rfl⟩⟩

/-- CountersPastTheirRangeStillRun: each clause at the first value past the range and the last. -/
theorem witness_CountersPastTheirRangeStillRun :
    (encAt 0 3).enc.cnt = 3 ∧ (decAt 0 5 0 false).dec.fault = false ∧
      4 < (decAt 0 5 0 false).dec.cnt.toNat ∧ (decAt 0 7 3 true).dec.skip = true ∧
      4 < (decAt 0 7 3 true).dec.cnt.toNat ∧ (decAt 0 4 0 false).dec.skip = false ∧
      3 < (decAt 0 4 0 false).dec.cnt.toNat ∧ (decAt 0 4 0 false).dec.cnt.toNat < 7 ∧
      (invRom 0x41).valid = true := by decide

/-- UnitsAreIndependent: an encoder step beside a faulted and beside an idle decoder, and a decoder step
beside a busy and beside an idle encoder. -/
theorem witness_UnitsAreIndependent :
    (decFaulted.enc = State.reset.enc ∧ ∃ t, exec (.encByte 0x4D) State.reset = next t) ∧
      (encAt 0x004D61 2).dec = State.reset.dec ∧ ∃ t, exec (.decChar 0x54) State.reset = next t :=
  ⟨⟨rfl, _, rfl⟩, rfl, _, rfl⟩

theorem witness_InterleavingDoesNotMatter :
    ∃ t, execAll [.encByte 0x4D, .decChar 0x54, .encEnd 0, .decEnd 0] State.reset = next t :=
  ⟨_, rfl⟩

theorem witness_CyclesRunTheCommandsPresented :
    (driven State.reset [bothPorts 0x04D 0x054, PinsIn.idle]).wasReset = true ∧
      (driven State.reset [bothPorts 0x04D 0x054, PinsIn.idle]).input =
        [bothPorts 0x04D 0x054, PinsIn.idle] ++ [] ∧
      ∀ p ∈ [bothPorts 0x04D 0x054, PinsIn.idle], p.rst = false := by decide

/-- The idle states that EncodeRunClosedForm, DecodeRunClosedForm and EmptyInputEmitsNothing start from,
and a text of each result (E5, and `TQ!=`). -/
theorem witness_run_starts :
    EncIdle State.reset.enc ∧ DecIdle State.reset.dec ∧
      decodeClosed [0x54, 0x51, 0x3D, 0x3D] = .bytes [0x4D] ∧
      decodeClosed [0x54, 0x51, 0x21, 0x3D] = .invalidCharacter 0x21 := by decide

/-- DecodedLength, ReencodingAnEncoderOutput, SplittingAtWholeGroups: E2, E5 and E4. -/
theorem witness_whole_payloads :
    encodePayload [0x4D] = some [0x54, 0x51, 0x3D, 0x3D] ∧
      decodeText ([0x54, 0x51] ++ List.replicate 2 0x3D) = some (.bytes [0x4D]) ∧
      (0x3D : Byte) ∉ ([0x54, 0x51] : List Byte) ∧ ([0x4D, 0x61, 0x6E] : List Byte).length % 3 = 0 ∧
      decodeText [0x54, 0x57, 0x46, 0x75] = some (.bytes [0x4D, 0x61, 0x6E]) ∧
      ([0x54, 0x57, 0x46, 0x75] : List Byte).length % 4 = 0 := by
  decide

/-- RunsDoNotInterfere: two runs interleaved. -/
theorem witness_RunsDoNotInterfere :
    (([.decChar 0x54, .encByte 0x4D, .decChar 0x51, .encEnd 0, .decEnd 0] : List Instr).filter
        (·.port == .enc) = encodeCommands [0x4D] ∧
      ([.decChar 0x54, .encByte 0x4D, .decChar 0x51, .encEnd 0, .decEnd 0] : List Instr).filter
        (·.port == .dec) = decodeCommands [0x54, 0x51] ∧
      decodeText [0x54, 0x51] = some (.bytes [0x4D])) ∧
    ∃ t, execAll [.decChar 0x54, .encByte 0x4D, .decChar 0x51, .encEnd 0, .decEnd 0] State.reset = next t :=
  ⟨by decide, _, rfl⟩

end Sys2Proof.Tests
end

section
/-! PROOFS. What one instruction does to each unit, as a function of that unit alone (00_scope.md R8):
`exec_eq` says it for a step, `execAll_eq` for a run. From them the independence of the units, and that a
run from an idle unit is the run from reset after the earlier output (R7). -/

namespace Sys2Proof.Machine

/-! ### The step of each unit -/

/-- The encoder after an instruction; those of `dec_cmd` leave it (R101, R102, R8). -/
def EncUnit.after (u : EncUnit) : Instr → EncUnit
  | .encByte b =>
    if u.cnt.toNat + 1 = Config.encGroup then u.close (encGroup (shiftInByte u.acc b) Config.encGroup) false
    else u.hold (shiftInByte u.acc b) (u.cnt.toNat + 1)
  | .encEnd _ => u.close (if u.cnt = 0 then [] else encGroup u.acc u.cnt.toNat) true
  | .decPad | .decChar _ | .decEnd _ => u

/-- `receive` on the decoder alone. -/
def DecUnit.receive (u : DecUnit) (a : Acc) (n : Nat) (skip : Bool) : DecUnit :=
  if u.pos = Config.lastPos then u.close (decChunk a n) false else u.advance a n skip

/-- The decoder after an instruction; those of `enc_cmd` leave it (R121 to R126, R133, R8). -/
def DecUnit.after (u : DecUnit) : Instr → DecUnit
  | .encByte _ | .encEnd _ => u
  | .decPad => if u.fault then u.quiet else u.receive u.acc u.cnt.toNat true
  | .decChar c =>
    if u.fault then u.quiet
    else if u.skip then u.receive u.acc u.cnt.toNat true
    else if (invRom c).valid then u.receive (shiftInSextet u.acc (invRom c).idx) (u.cnt.toNat + 1) false
    else u.quiet.recordFault .invalidCharacter c
  | .decEnd _ => if u.fault then u.quiet else u.close (decChunk u.acc u.cnt.toNat) true

theorem EncUnit.after_of_dec (u : EncUnit) {i : Instr} (h : i.port = .dec) : u.after i = u := by
  cases i with
  | encByte | encEnd => cases h
  | decPad | decChar | decEnd => rfl

theorem DecUnit.after_of_enc (u : DecUnit) {i : Instr} (h : i.port = .enc) : u.after i = u := by
  cases i with
  | encByte | encEnd => rfl
  | decPad | decChar | decEnd => cases h

theorem receive_eq (a : Acc) (n : Nat) (k : Bool) (s : State) :
    Machine.receive a n k s = s.withDec (s.dec.receive a n k) := by
  unfold Machine.receive DecUnit.receive
  split <;> rfl

/-- A step has a next state, and each unit of it is a function of that unit alone. -/
theorem exec_eq (i : Instr) (s : State) :
    exec i s = .next ((s.withEnc (s.enc.after i)).withDec (s.dec.after i)) := by
  cases i with
  | encByte b =>
    simp only [exec, execEncByte, EncUnit.after]
    split
    next h => rw [h]; rfl
    next => rfl
  | encEnd d => rfl
  | decPad =>
    simp only [exec, execDecPad, decIgnore, receive_eq, DecUnit.after]
    split <;> rfl
  | decChar c =>
    simp only [exec, execDecChar, decIgnore, decSymbol, receive_eq, DecUnit.after]
    split
    · rfl
    · split
      · rfl
      · split <;> rfl
  | decEnd d =>
    simp only [exec, execDecEnd, DecUnit.after]
    split <;> rfl

/-- A run has a final state, and each unit of it is a function of that unit alone. -/
theorem execAll_eq (l : List Instr) (s : State) :
    execAll l s =
      .next ((s.withEnc (l.foldl EncUnit.after s.enc)).withDec (l.foldl DecUnit.after s.dec)) := by
  induction l generalizing s with
  | nil => rfl
  | cons i l ih => simp only [execAll, exec_eq, andThen_next, ih]; rfl

/-- Settles O42: by `exec_eq` each unit's next value depends on that unit alone, and a step leaves the unit of
the other port. -/
theorem unitsAreIndependent : Obligations.UnitsAreIndependent := by
  constructor
  · intro i s s' t hport henc h
    rw [exec_eq, Host.Outcome.next.injEq] at h
    rw [exec_eq, ← h, DecUnit.after_of_enc _ hport, henc]
    rfl
  · intro i s s' t hport hdec h
    rw [exec_eq, Host.Outcome.next.injEq] at h
    rw [exec_eq, ← h, EncUnit.after_of_dec _ hport, hdec]
    rfl

/-! ### Interleaved runs -/

/-- The encoder's run is the run of the encoder's instructions. -/
theorem EncUnit.foldl_after_filter (l : List Instr) (u : EncUnit) :
    (l.filter (·.port == .enc)).foldl EncUnit.after u = l.foldl EncUnit.after u := by
  rw [List.foldl_filter]
  congr 1
  funext u i
  cases i <;> rfl

/-- The decoder's run is the run of the decoder's instructions. -/
theorem DecUnit.foldl_after_filter (l : List Instr) (u : DecUnit) :
    (l.filter (·.port == .dec)).foldl DecUnit.after u = l.foldl DecUnit.after u := by
  rw [List.foldl_filter]
  congr 1
  funext u i
  cases i <;> rfl

/-- Settles O43: by `execAll_eq` a run folds each unit's own step, and the other unit's instructions drop out
of the fold. -/
theorem interleavingDoesNotMatter : Obligations.InterleavingDoesNotMatter := by
  intro l s t h
  rw [execAll_eq, Host.Outcome.next.injEq] at h
  refine ⟨_, _, execAll_eq _ s, execAll_eq _ s, ?_⟩
  simp only [State.withDec_enc, State.withEnc_enc, State.withDec_dec, EncUnit.foldl_after_filter,
    DecUnit.foldl_after_filter]
  exact h.symm

/-! ### Runs from an idle unit

No step reads the output word or the output sequence (log entries 3 and 4), so a run from an idle unit is the
run from reset with the earlier output before it. -/

/-- The encoder with `e` emitted before all that it has emitted. -/
def EncUnit.withPrior (u : EncUnit) (e : List Byte) : EncUnit :=
  { u with emitted := e ++ u.emitted }

/-- The decoder with `e` emitted before all that it has emitted. -/
def DecUnit.withPrior (u : DecUnit) (e : List Byte) : DecUnit :=
  { u with emitted := e ++ u.emitted }

theorem EncUnit.close_withPrior (u : EncUnit) (e cs : List Byte) (l : Bool) :
    (u.withPrior e).close cs l = (u.close cs l).withPrior e := by
  simp [EncUnit.close, EncUnit.withPrior]

theorem DecUnit.close_withPrior (u : DecUnit) (e bs : List Byte) (l : Bool) :
    (u.withPrior e).close bs l = (u.close bs l).withPrior e := by
  simp [DecUnit.close, DecUnit.withPrior, DecUnit.withSkip]

theorem DecUnit.receive_withPrior (u : DecUnit) (e : List Byte) (a : Acc) (n : Nat) (k : Bool) :
    (u.withPrior e).receive a n k = (u.receive a n k).withPrior e := by
  unfold DecUnit.receive
  rw [DecUnit.close_withPrior, apply_ite (DecUnit.withPrior · e)]
  rfl

theorem EncUnit.after_withPrior (u : EncUnit) (e : List Byte) (i : Instr) :
    (u.withPrior e).after i = (u.after i).withPrior e := by
  cases i with
  | encByte b =>
    simp only [EncUnit.after, EncUnit.close_withPrior, apply_ite (EncUnit.withPrior · e)]
    rfl
  | encEnd d => exact EncUnit.close_withPrior u e _ true
  | decPad | decChar | decEnd => rfl

theorem DecUnit.after_withPrior (u : DecUnit) (e : List Byte) (i : Instr) :
    (u.withPrior e).after i = (u.after i).withPrior e := by
  cases i with
  | encByte | encEnd => rfl
  | decPad | decChar | decEnd =>
    simp only [DecUnit.after, DecUnit.receive_withPrior, DecUnit.close_withPrior,
      apply_ite (DecUnit.withPrior · e)]
    rfl

theorem EncUnit.after_quiet (u : EncUnit) (i : Instr) : (u.quiet.after i).quiet = (u.after i).quiet := by
  cases i <;> rfl

theorem DecUnit.after_quiet (u : DecUnit) (i : Instr) : (u.quiet.after i).quiet = (u.after i).quiet := by
  cases i <;> rfl

theorem EncUnit.foldl_after_withPrior (l : List Instr) (u : EncUnit) (e : List Byte) :
    l.foldl EncUnit.after (u.withPrior e) = (l.foldl EncUnit.after u).withPrior e :=
  List.foldl_hom (EncUnit.withPrior · e) (EncUnit.after_withPrior · e)

theorem DecUnit.foldl_after_withPrior (l : List Instr) (u : DecUnit) (e : List Byte) :
    l.foldl DecUnit.after (u.withPrior e) = (l.foldl DecUnit.after u).withPrior e :=
  List.foldl_hom (DecUnit.withPrior · e) (DecUnit.after_withPrior · e)

/-- Units that differ in the output word of the last cycle only run to such units. -/
theorem EncUnit.foldl_after_quiet (l : List Instr) {u v : EncUnit} (h : u.quiet = v.quiet) :
    (l.foldl EncUnit.after u).quiet = (l.foldl EncUnit.after v).quiet := by
  induction l generalizing u v with
  | nil => exact h
  | cons i l ih => exact ih (by rw [← u.after_quiet, h, v.after_quiet])

/-- Units that differ in the output word of the last cycle only run to such units. -/
theorem DecUnit.foldl_after_quiet (l : List Instr) {u v : DecUnit} (h : u.quiet = v.quiet) :
    (l.foldl DecUnit.after u).quiet = (l.foldl DecUnit.after v).quiet := by
  induction l generalizing u v with
  | nil => exact h
  | cons i l ih => exact ih (by rw [← u.after_quiet, h, v.after_quiet])

theorem EncUnit.quiet_of_idle {u : EncUnit} (h : EncIdle u) :
    u.quiet = (EncUnit.reset.withPrior u.emitted).quiet := by
  obtain ⟨hacc, hcnt⟩ := h
  simp [EncUnit.quiet, EncUnit.withPrior, EncUnit.reset, hacc, hcnt]

theorem DecUnit.quiet_of_idle {u : DecUnit} (h : DecIdle u) :
    u.quiet = (DecUnit.reset.withPrior u.emitted).quiet := by
  obtain ⟨hacc, hcnt, hpos, hskip, hfault, hfcode, hfchar⟩ := h
  simp [DecUnit.quiet, DecUnit.withPrior, DecUnit.reset, hacc, hcnt, hpos, hskip, hfault, hfcode, hfchar]

/-- A run from an idle encoder is the run from reset after the earlier output. -/
theorem EncUnit.foldl_after_of_idle (l : List Instr) {u : EncUnit} (h : EncIdle u) :
    (l.foldl EncUnit.after u).quiet =
      ((l.foldl EncUnit.after EncUnit.reset).withPrior u.emitted).quiet := by
  rw [EncUnit.foldl_after_quiet l (EncUnit.quiet_of_idle h), EncUnit.foldl_after_withPrior]

/-- A run from an idle decoder is the run from reset after the earlier output. -/
theorem DecUnit.foldl_after_of_idle (l : List Instr) {u : DecUnit} (h : DecIdle u) :
    (l.foldl DecUnit.after u).quiet =
      ((l.foldl DecUnit.after DecUnit.reset).withPrior u.emitted).quiet := by
  rw [DecUnit.foldl_after_quiet l (DecUnit.quiet_of_idle h), DecUnit.foldl_after_withPrior]

/-! ### Whole groups leave the encoder idle -/

/-- `n` bytes after an idle state `ENC.CNT` is `n` modulo 3, and the encoder is idle when that is 0. -/
def EncUnit.CountsBytes (u : EncUnit) (n : Nat) : Prop :=
  u.cnt.toNat = n % 3 ∧ (u.cnt = 0 → u.acc = 0)

theorem EncUnit.CountsBytes.after_encByte {u : EncUnit} {n : Nat} (h : u.CountsBytes n) (b : Byte) :
    (u.after (.encByte b)).CountsBytes (n + 1) := by
  obtain ⟨hcnt, -⟩ := h
  simp only [EncUnit.after, Config.encGroup_eq]
  split
  next hfull => exact ⟨by simp; omega, fun _ => rfl⟩
  next hopen =>
    have hnew : encCntFor (shiftInByte u.acc b) (u.cnt.toNat + 1) = BitVec.ofNat 2 (u.cnt.toNat + 1) :=
      encCntFor_of_lt _ (by omega)
    refine ⟨?_, fun hzero => ?_⟩
    · rw [EncUnit.hold_cnt, hnew, BitVec.toNat_ofNat]; omega
    · rw [EncUnit.hold_cnt, hnew] at hzero
      have := congrArg BitVec.toNat hzero
      simp at this; omega

theorem EncUnit.CountsBytes.foldl_encByte (p : List Byte) {u : EncUnit} {n : Nat} (h : u.CountsBytes n) :
    ((p.map Instr.encByte).foldl EncUnit.after u).CountsBytes (n + p.length) := by
  induction p generalizing u n with
  | nil => exact h
  | cons b p ih =>
    rw [List.length_cons, Nat.add_comm p.length, ← Nat.add_assoc]
    exact ih (h.after_encByte b)

/-- After whole groups the encoder is idle (R25). -/
theorem encIdle_of_wholeGroups {p : List Byte} (hp : p.length % 3 = 0) :
    EncIdle ((p.map Instr.encByte).foldl EncUnit.after EncUnit.reset) := by
  obtain ⟨hcnt, hacc⟩ :=
    EncUnit.CountsBytes.foldl_encByte p (u := EncUnit.reset) (n := 0) ⟨rfl, fun _ => rfl⟩
  rw [Nat.zero_add, hp] at hcnt
  have hzero := BitVec.eq_of_toNat_eq (y := 0#2) hcnt
  exact ⟨hacc hzero, hzero⟩

/-! ### Whole chunks leave the decoder idle -/

/-- `n` characters after an idle state, none of which faulted, `DEC.POS` is `n` modulo 4, the chunk is empty
when that is 0, and no fault is recorded. -/
def DecUnit.CountsChars (u : DecUnit) (n : Nat) : Prop :=
  u.pos.toNat = n % 4 ∧ (u.pos = 0 → u.acc = 0 ∧ u.cnt = 0 ∧ u.skip = false) ∧
    u.fault = false ∧ u.fcode = .none ∧ u.fchar = 0

/-- A data command that does not fault receives a character. -/
theorem DecUnit.after_charCommand_eq_receive {u : DecUnit} {c : Byte} (hu : u.fault = false)
    (h : (u.after (charCommand c)).fault = false) :
    ∃ a n k, u.after (charCommand c) = u.receive a n k := by
  unfold charCommand at h ⊢
  split at h
  next hpad => exact ⟨_, _, _, by simp only [if_pos hpad, DecUnit.after, hu]; rfl⟩
  next hpad =>
    simp only [if_neg hpad, DecUnit.after, hu, Bool.false_eq_true, if_false] at h ⊢
    split
    next => exact ⟨_, _, _, rfl⟩
    next hskip =>
      split
      next => exact ⟨_, _, _, rfl⟩
      next hinvalid => simp [hskip, hinvalid] at h

theorem DecUnit.CountsChars.receive {u : DecUnit} {n : Nat} (h : u.CountsChars n) (a : Acc) (m : Nat)
    (k : Bool) : (u.receive a m k).CountsChars (n + 1) := by
  obtain ⟨hpos, -, hfault⟩ := h
  unfold DecUnit.receive
  split
  next hlast => exact ⟨by simp [hlast] at hpos ⊢; omega, fun _ => ⟨rfl, rfl, rfl⟩, hfault⟩
  next hopen =>
    refine ⟨?_, fun hzero => absurd hzero ?_, hfault⟩
    · rw [DecUnit.advance_pos]; bv_omega
    · rw [DecUnit.advance_pos]; bv_omega

/-- A fault is kept by every instruction. -/
theorem DecUnit.fault_of_after {u : DecUnit} {i : Instr} (h : (u.after i).fault = false) :
    u.fault = false := by
  by_contra hu
  rw [Bool.not_eq_false] at hu
  cases i <;> simp [DecUnit.after, hu] at h

theorem DecUnit.fault_of_foldl_after {l : List Instr} {u : DecUnit}
    (h : (l.foldl DecUnit.after u).fault = false) : u.fault = false := by
  induction l generalizing u with
  | nil => exact h
  | cons i l ih => exact DecUnit.fault_of_after (ih h)

theorem DecUnit.CountsChars.foldl_charCommand (x : List Byte) {u : DecUnit} {n : Nat} (h : u.CountsChars n)
    (hfault : ((x.map charCommand).foldl DecUnit.after u).fault = false) :
    ((x.map charCommand).foldl DecUnit.after u).CountsChars (n + x.length) := by
  induction x generalizing u n with
  | nil => exact h
  | cons c x ih =>
    obtain ⟨-, -, hu, -⟩ := id h
    have hc : (u.after (charCommand c)).fault = false := DecUnit.fault_of_foldl_after hfault
    obtain ⟨a, m, k, hrec⟩ := DecUnit.after_charCommand_eq_receive hu hc
    rw [List.length_cons, Nat.add_comm x.length, ← Nat.add_assoc]
    exact ih (hrec ▸ h.receive a m k) hfault

/-- After whole chunks without a fault the decoder is idle (R35). -/
theorem decIdle_of_wholeChunks {x : List Byte} (hx : x.length % 4 = 0)
    (hfault : ((x.map charCommand).foldl DecUnit.after DecUnit.reset).fault = false) :
    DecIdle ((x.map charCommand).foldl DecUnit.after DecUnit.reset) := by
  obtain ⟨hpos, hempty, hrest⟩ :=
    DecUnit.CountsChars.foldl_charCommand x (u := DecUnit.reset) (n := 0)
      ⟨rfl, fun _ => ⟨rfl, rfl, rfl⟩, rfl, rfl, rfl⟩ hfault
  rw [Nat.zero_add, hx] at hpos
  have hzero := BitVec.eq_of_toNat_eq (y := 0#2) hpos
  obtain ⟨hacc, hcnt, hskip⟩ := hempty hzero
  exact ⟨hacc, hcnt, hzero, hskip, hrest⟩

/-! ### Splitting a payload and a text -/

theorem encodeCommands_append (p q : List Byte) :
    encodeCommands (p ++ q) = p.map Instr.encByte ++ encodeCommands q := by
  simp [encodeCommands]

theorem decodeCommands_append (x y : List Byte) :
    decodeCommands (x ++ y) = x.map charCommand ++ decodeCommands y := by
  simp [decodeCommands]

/-- `encode(P)` is what the encoder alone emits. -/
theorem encodePayload_eq (p : List Byte) :
    encodePayload p = some ((encodeCommands p).foldl EncUnit.after EncUnit.reset).emitted := by
  rw [encodePayload, execAll_eq]
  rfl

theorem decodeResultOf_eq_bytes {s : State} {b : List Byte} :
    decodeResultOf s = .bytes b ↔ s.dec.fault = false ∧ s.dec.emitted = b := by
  unfold decodeResultOf
  split <;> simp_all

/-- `decode(T)` succeeds when the decoder alone does not fault, and gives what it emits. -/
theorem decodeText_eq_bytes {x b : List Byte} :
    decodeText x = some (.bytes b) ↔
      ((decodeCommands x).foldl DecUnit.after DecUnit.reset).fault = false ∧
        ((decodeCommands x).foldl DecUnit.after DecUnit.reset).emitted = b := by
  rw [decodeText, execAll_eq]
  exact Option.some_inj.trans decodeResultOf_eq_bytes

theorem EncUnit.emitted_encEnd_of_idle {u : EncUnit} (h : EncIdle u) (d : Byte) :
    (u.after (.encEnd d)).emitted = u.emitted := by
  obtain ⟨-, hcnt⟩ := h
  simp [EncUnit.after, hcnt]

theorem DecUnit.emitted_decEnd_of_idle {u : DecUnit} (h : DecIdle u) (d : Byte) :
    (u.after (.decEnd d)).emitted = u.emitted := by
  obtain ⟨-, hcnt, -, -, hfault, -⟩ := h
  simp [DecUnit.after, hcnt, hfault, decChunk_of_le_one]

/-- What whole groups emit is their `encode`: the END on an idle encoder adds nothing. -/
theorem encodePayload_of_wholeGroups {p : List Byte} (hp : p.length % 3 = 0) :
    encodePayload p = some ((p.map Instr.encByte).foldl EncUnit.after EncUnit.reset).emitted := by
  rw [encodePayload_eq, encodeCommands, List.foldl_append]
  exact congrArg some (EncUnit.emitted_encEnd_of_idle (encIdle_of_wholeGroups hp) 0)

/-- R7 for the encoder. -/
theorem encodePayload_append {p q y : List Byte} (hp : p.length % 3 = 0) (hq : encodePayload q = some y) :
    ∃ x, encodePayload p = some x ∧ encodePayload (p ++ q) = some (x ++ y) := by
  refine ⟨_, encodePayload_of_wholeGroups hp, ?_⟩
  rw [encodePayload_eq, Option.some.injEq] at hq
  have hrun := congrArg EncUnit.emitted
    (EncUnit.foldl_after_of_idle (encodeCommands q) (encIdle_of_wholeGroups hp))
  rw [encodePayload_eq, encodeCommands_append, List.foldl_append, ← hq]
  exact congrArg some hrun

/-- A text of whole chunks that decodes leaves the decoder idle before END, with all bytes emitted. -/
theorem wholeChunks_of_decodeText {x b : List Byte} (hx : x.length % 4 = 0)
    (h : decodeText x = some (.bytes b)) :
    DecIdle ((x.map charCommand).foldl DecUnit.after DecUnit.reset) ∧
      ((x.map charCommand).foldl DecUnit.after DecUnit.reset).emitted = b := by
  obtain ⟨hfault, hemitted⟩ := decodeText_eq_bytes.mp h
  rw [decodeCommands, List.foldl_append] at hfault hemitted
  have hidle := decIdle_of_wholeChunks hx (DecUnit.fault_of_foldl_after hfault)
  exact ⟨hidle, (DecUnit.emitted_decEnd_of_idle hidle 0).symm.trans hemitted⟩

/-- R7 for the decoder. -/
theorem decodeText_append {x y b b' : List Byte} (hx : x.length % 4 = 0)
    (hb : decodeText x = some (.bytes b)) (hb' : decodeText y = some (.bytes b')) :
    decodeText (x ++ y) = some (.bytes (b ++ b')) := by
  obtain ⟨hidle, hemitted⟩ := wholeChunks_of_decodeText hx hb
  obtain ⟨hfault', hemitted'⟩ := decodeText_eq_bytes.mp hb'
  have hrun := DecUnit.foldl_after_of_idle (decodeCommands y) hidle
  rw [decodeText_eq_bytes, decodeCommands_append, List.foldl_append, ← hemitted, ← hemitted']
  exact ⟨(congrArg DecUnit.fault hrun).trans hfault', congrArg DecUnit.emitted hrun⟩

/-- Settles O56: after whole groups or chunks the unit is idle, its END would add nothing, and a run from an
idle unit is the run from reset after the earlier output. -/
theorem splittingAtWholeGroups : Obligations.SplittingAtWholeGroups := by
  constructor
  · intro p q hp
    have hq := encodePayload_eq q
    obtain ⟨x, hx, hpq⟩ := encodePayload_append hp hq
    exact ⟨x, _, hx, hq, hpq⟩
  · intro x y b b' hx hb hb'
    exact decodeText_append hx hb hb'

end Sys2Proof.Machine
end

section
/-! PROOFS. What the registers hold between steps (10_state.md): the accumulators, the invariants of R23 and
R36 with those of the outputs, what each unit's step leaves unchanged, and what `ENC` and `DEC` hold of the
open group and chunk. -/

namespace Sys2Proof.Machine

/-- The next state of an instruction, unit by unit. -/
theorem eq_of_exec_eq_next {i : Instr} {s t : State} (h : exec i s = .next t) :
    t = (s.withEnc (s.enc.after i)).withDec (s.dec.after i) := by
  rw [exec_eq, Host.Outcome.next.injEq] at h
  exact h.symm

/-! ### Entering a symbol into an accumulator -/

/-- A symbol that enters at the low end is added to the shifted accumulator; bits shifted out are lost. -/
theorem shiftIn_eq_ofNat {k : Nat} (hk : k ≤ 24) (a : Acc) (b : BitVec k) :
    (a <<< k) ||| b.setWidth 24 = BitVec.ofNat 24 (a.toNat * 2 ^ k + b.toNat) := by
  apply BitVec.eq_of_toNat_eq
  have hb : b.toNat % 2 ^ 24 = b.toNat :=
    Nat.mod_eq_of_lt (b.isLt.trans_le (Nat.pow_le_pow_right (by decide) hk))
  rw [BitVec.toNat_or, BitVec.toNat_shiftLeft, BitVec.toNat_setWidth, BitVec.toNat_ofNat,
    ← Nat.or_mod_two_pow, ← Nat.shiftLeft_eq, Nat.shiftLeft_add_eq_or_of_lt b.isLt]

theorem shiftInByte_eq_ofNat (a : Acc) (b : Byte) :
    shiftInByte a b = BitVec.ofNat 24 (a.toNat * 2 ^ 8 + b.toNat) :=
  shiftIn_eq_ofNat (by decide) a b

theorem shiftInSextet_eq_ofNat (a : Acc) (i : Sextet) :
    shiftInSextet a i = BitVec.ofNat 24 (a.toNat * 2 ^ 6 + i.toNat) :=
  shiftIn_eq_ofNat (by decide) a i

/-- `n` bytes and one more are `n + 1` bytes. -/
theorem shiftInByte_lt {a : Acc} {n : Nat} (h : a.toNat < 2 ^ (8 * n)) (b : Byte) :
    (shiftInByte a b).toNat < 2 ^ (8 * (n + 1)) := by
  rw [shiftInByte_eq_ofNat, BitVec.toNat_ofNat, Nat.mul_succ, Nat.pow_add]
  have := b.isLt
  exact (Nat.mod_le _ _).trans_lt (by omega)

/-- `n` sextets and one more are `n + 1` sextets. -/
theorem shiftInSextet_lt {a : Acc} {n : Nat} (h : a.toNat < 2 ^ (6 * n)) (i : Sextet) :
    (shiftInSextet a i).toNat < 2 ^ (6 * (n + 1)) := by
  rw [shiftInSextet_eq_ofNat, BitVec.toNat_ofNat, Nat.mul_succ, Nat.pow_add]
  have := i.isLt
  exact (Nat.mod_le _ _).trans_lt (by omega)

/-! ### What a received character and a decoder step can do -/

@[simp] theorem DecUnit.receive_fault (u : DecUnit) (a : Acc) (n : Nat) (k : Bool) :
    (u.receive a n k).fault = u.fault := by
  unfold DecUnit.receive; split <;> rfl

@[simp] theorem DecUnit.receive_fcode (u : DecUnit) (a : Acc) (n : Nat) (k : Bool) :
    (u.receive a n k).fcode = u.fcode := by
  unfold DecUnit.receive; split <;> rfl

@[simp] theorem DecUnit.receive_fchar (u : DecUnit) (a : Acc) (n : Nat) (k : Bool) :
    (u.receive a n k).fchar = u.fchar := by
  unfold DecUnit.receive; split <;> rfl

/-- `DEC.POS` counts modulo 4: the closing character returns it from 3 to 0. -/
@[simp] theorem DecUnit.receive_pos (u : DecUnit) (a : Acc) (n : Nat) (k : Bool) :
    (u.receive a n k).pos = u.pos + 1 := by
  unfold DecUnit.receive
  split
  next hlast => rw [hlast]; rfl
  next => rfl

@[simp] theorem DecUnit.receive_skip (u : DecUnit) (a : Acc) (n : Nat) (k : Bool) :
    (u.receive a n k).skip = (if u.pos = 3 then false else k) := by
  unfold DecUnit.receive; split <;> rfl

theorem DecUnit.prefix_receive_emitted (u : DecUnit) (a : Acc) (n : Nat) (k : Bool) :
    u.emitted <+: (u.receive a n k).emitted := by
  unfold DecUnit.receive
  split
  next => exact List.prefix_append ..
  next => exact List.prefix_rfl

theorem DecUnit.after_decEnd {u : DecUnit} (h : u.fault = false) (d : Byte) :
    u.after (.decEnd d) = u.close (decChunk u.acc u.cnt.toNat) true := by
  simp [DecUnit.after, h]

theorem DecUnit.after_decPad {u : DecUnit} (h : u.fault = false) :
    u.after .decPad = u.receive u.acc u.cnt.toNat true := by
  simp [DecUnit.after, h]

/-- What a decoder instruction can do: nothing (faulted), close, ignore a character, consume it, or take the
fault (R121 to R126, R133). -/
theorem DecUnit.after_cases (u : DecUnit) {i : Instr} (h : i.port = .dec) :
    (u.fault = true ∧ u.after i = u.quiet) ∨
    (u.fault = false ∧ (∃ d, i = .decEnd d) ∧
      u.after i = u.close (decChunk u.acc u.cnt.toNat) true) ∨
    (u.fault = false ∧ (i = .decPad ∨ (∃ c, i = .decChar c) ∧ u.skip = true) ∧
      u.after i = u.receive u.acc u.cnt.toNat true) ∨
    (u.fault = false ∧ ∃ c, i = .decChar c ∧ u.skip = false ∧ (invRom c).valid = true ∧
      u.after i = u.receive (shiftInSextet u.acc (invRom c).idx) (u.cnt.toNat + 1) false) ∨
    (u.fault = false ∧ ∃ c, i = .decChar c ∧ u.skip = false ∧ (invRom c).valid = false ∧
      u.after i = u.quiet.recordFault .invalidCharacter c) := by
  cases hf : u.fault with
  | true => cases i <;> simp_all [DecUnit.after, Instr.port]
  | false =>
    cases i with
    | encByte | encEnd => cases h
    | decPad | decEnd => simp [DecUnit.after, hf]
    | decChar c =>
      cases hs : u.skip with
      | true => simp [DecUnit.after, hf, hs]
      | false => cases hv : (invRom c).valid <;> simp [DecUnit.after, hf, hs, hv]

/-! ### The encoder's invariants (R23, R86, R108) -/

theorem EncInv.after {u : EncUnit} (h : EncInv u) (i : Instr) : EncInv (u.after i) := by
  obtain ⟨hcnt, hacc⟩ := id h
  cases i with
  | encByte b =>
    simp only [EncUnit.after, Config.encGroup_eq]
    split
    next => exact ⟨by simp, by simp⟩
    next hopen =>
      have hnew : (encCntFor (shiftInByte u.acc b) (u.cnt.toNat + 1)).toNat = u.cnt.toNat + 1 := by
        rw [encCntFor_of_lt _ (by omega), BitVec.toNat_ofNat]; omega
      rw [EncInv, EncUnit.hold_cnt, EncUnit.hold_acc, hnew]
      exact ⟨by omega, shiftInByte_lt hacc b⟩
  | encEnd => exact ⟨by simp [EncUnit.after], by simp [EncUnit.after]⟩
  | decPad | decChar | decEnd => exact h

theorem invRom_alphabet_valid : ∀ i : Sextet, (invRom (alphabet i)).valid = true := by decide

theorem isTextChar_groupChar (v : Acc) (n j : Nat) : IsTextChar (groupChar v n j) := by
  unfold groupChar
  split
  next => exact .inl (invRom_alphabet_valid _)
  next => exact .inr rfl

theorem isTextChar_of_mem_encGroup {a : Acc} {n : Nat} {c : Byte} (h : c ∈ encGroup a n) : IsTextChar c := by
  obtain ⟨j, -, rfl⟩ := List.mem_map.mp h
  exact isTextChar_groupChar _ _ _

theorem EncOutInv.quiet {u : EncUnit} (h : EncOutInv u) : EncOutInv u.quiet := by
  obtain ⟨hlen, htext, -⟩ := h
  exact ⟨hlen, htext, fun _ => rfl⟩

theorem EncOutInv.hold {u : EncUnit} (h : EncOutInv u) (a : Acc) (n : Nat) : EncOutInv (u.hold a n) :=
  h.quiet

/-- Closing an empty group emits nothing. -/
theorem EncOutInv.close_nil {u : EncUnit} (h : EncOutInv u) (l : Bool) : EncOutInv (u.close [] l) := by
  obtain ⟨hlen, htext, -⟩ := h
  rw [EncOutInv, EncUnit.close_emitted, EncUnit.close_out, List.append_nil]
  exact ⟨hlen, htext, fun _ => rfl⟩

theorem EncOutInv.close_encGroup {u : EncUnit} (h : EncOutInv u) (a : Acc) (n : Nat) (l : Bool) :
    EncOutInv (u.close (encGroup a n) l) := by
  obtain ⟨hlen, htext, -⟩ := h
  refine ⟨?_, fun c hc => ?_, fun hvalid => ?_⟩
  · simp [hlen]
  · rw [EncUnit.close_emitted, List.mem_append] at hc
    exact hc.elim (htext c) isTextChar_of_mem_encGroup
  · cases hvalid

theorem EncOutInv.after {u : EncUnit} (h : EncOutInv u) (i : Instr) : EncOutInv (u.after i) := by
  cases i with
  | encByte b =>
    simp only [EncUnit.after]
    split
    next => exact h.close_encGroup _ _ _
    next => exact h.hold _ _
  | encEnd =>
    simp only [EncUnit.after]
    split
    next => exact h.close_nil _
    next => exact h.close_encGroup _ _ _
  | decPad | decChar | decEnd => exact h

/-! ### The decoder's invariants (R36, R87) -/

theorem DecInv.close {u : DecUnit} (h : DecInv u) (hf : u.fault = false) (bs : List Byte) (l : Bool) :
    DecInv (u.close bs l) := by
  obtain ⟨-, -, -, -, hclear, -⟩ := h
  simp [DecInv, hf, hclear hf]

/-- A character that leaves `n` consumed in `a`: all of the chunk's, or fewer when `skip` is set. -/
theorem DecInv.receive {u : DecUnit} (h : DecInv u) (hf : u.fault = false) {a : Acc} {n : Nat} {k : Bool}
    (ha : a.toNat < 2 ^ (6 * n)) (hall : k = false → n = u.pos.toNat + 1)
    (hfew : k = true → n ≤ u.pos.toNat) : DecInv (u.receive a n k) := by
  unfold DecUnit.receive
  split
  next => exact h.close hf _ _
  next hopen =>
    obtain ⟨-, -, -, -, hclear, -⟩ := h
    have hpos : (u.pos + 1).toNat = u.pos.toNat + 1 := by bv_omega
    have hn : n ≤ u.pos.toNat + 1 := by
      cases k with
      | false => exact (hall rfl).le
      | true => exact Nat.le_succ_of_le (hfew rfl)
    have hcnt : (decCntFor a u.pos n).toNat = n := by
      rw [decCntFor_of_lt _ _ (by omega), BitVec.toNat_ofNat]; omega
    simp only [DecInv, DecUnit.advance_cnt, DecUnit.advance_pos, DecUnit.advance_acc, DecUnit.advance_skip,
      DecUnit.advance_fault, DecUnit.advance_fcode, DecUnit.advance_fchar, hpos, hcnt]
    exact ⟨hn, ha, hall, fun hk => ⟨Nat.le_add_left .., Nat.lt_succ_of_le (hfew hk)⟩, hclear, by simp [hf]⟩

theorem DecInv.after {u : DecUnit} (h : DecInv u) {i : Instr} (hwf : i.wellFormed = true) :
    DecInv (u.after i) := by
  cases hport : i.port with
  | enc => rwa [DecUnit.after_of_enc _ hport]
  | dec =>
    obtain ⟨hle, hacc, hall, hskip, hclear, -⟩ := id h
    obtain ⟨-, heq⟩ | ⟨hf, -, heq⟩ | ⟨hf, -, heq⟩ | ⟨hf, c, -, hs, -, heq⟩ | ⟨hf, c, rfl, hs, hv, heq⟩ :=
      DecUnit.after_cases u hport <;> rw [heq]
    · exact h
    · exact h.close hf _ _
    · exact h.receive hf hacc nofun fun _ => hle
    · exact h.receive hf (shiftInSextet_lt hacc _) (fun _ => congrArg (· + 1) (hall hs)) nofun
    · have hpad : c ≠ padChar := by simpa [Instr.wellFormed, padChar] using hwf
      exact ⟨hle, hacc, hall, hskip, nofun, fun _ => ⟨rfl, hv, hpad, hs⟩⟩

/-- The output word carries nothing beyond its count (R87). -/
theorem DecOutInv.of_out_eq_decWord {u : DecUnit} {bs : List Byte} {l : Bool} (h : u.out = decWord bs l)
    (hlen : bs.length ≤ 3) : DecOutInv u := by
  have hcount : (decWord bs l).count.toNat = bs.length := by
    rw [decWord, BitVec.toNat_ofNat]; omega
  rw [DecOutInv, h, hcount]
  exact ⟨fun hle => (decWord_lane bs l (j := 2) (by decide)).trans (List.getD_eq_default _ _ hle),
    fun hle => (decWord_lane bs l (j := 1) (by decide)).trans (List.getD_eq_default _ _ hle),
    fun hle => (decWord_lane bs l (j := 0) (by decide)).trans (List.getD_eq_default _ _ hle.le)⟩

theorem DecOutInv.of_out_eq_idle {u : DecUnit} (h : u.out = DecOut.idle) : DecOutInv u :=
  of_out_eq_decWord (bs := []) (l := false) h (by decide)

theorem DecOutInv.receive (u : DecUnit) (a : Acc) (n : Nat) (k : Bool) : DecOutInv (u.receive a n k) := by
  unfold DecUnit.receive
  split
  next => exact of_out_eq_decWord rfl (decChunk_length_le _ _)
  next => exact of_out_eq_idle rfl

theorem DecOutInv.after {u : DecUnit} (h : DecOutInv u) (i : Instr) : DecOutInv (u.after i) := by
  cases hport : i.port with
  | enc => rwa [DecUnit.after_of_enc _ hport]
  | dec =>
    obtain ⟨-, heq⟩ | ⟨-, -, heq⟩ | ⟨-, -, heq⟩ | ⟨-, c, -, -, -, heq⟩ | ⟨-, c, -, -, -, heq⟩ :=
      DecUnit.after_cases u hport <;> rw [heq]
    · exact of_out_eq_idle rfl
    · exact of_out_eq_decWord rfl (decChunk_length_le _ _)
    · exact receive _ _ _ _
    · exact receive _ _ _ _
    · exact of_out_eq_idle rfl

/-! ### The block's invariant -/

/-- No command word is `DEC.CHAR` of `=` (R83, R92). -/
theorem decode_wellFormed (p : Port) (w : CmdWord) : (decode p w).wellFormed = true := by
  cases p with
  | enc => simp only [decode, decodeEnc]; split <;> rfl
  | dec => revert w; decide

theorem BlockInv.exec {i : Instr} {s t : State} (hwf : i.wellFormed = true) (h : BlockInv s)
    (hx : exec i s = .next t) : BlockInv t := by
  obtain ⟨henc, hencOut, hdec, hdecOut⟩ := h
  obtain rfl := eq_of_exec_eq_next hx
  exact ⟨henc.after i, hencOut.after i, hdec.after hwf, hdecOut.after i⟩

theorem BlockInv.encCycle {p : PinsIn} {s t : State} (h : BlockInv s) (hx : encCycle p s = .next t) :
    BlockInv t := by
  unfold Machine.encCycle at hx
  split at hx
  next => exact h.exec (decode_wellFormed _ _) hx
  next =>
    obtain ⟨henc, hencOut, hdec⟩ := h
    cases hx
    exact ⟨henc, hencOut.quiet, hdec⟩

theorem BlockInv.decCycle {p : PinsIn} {s t : State} (h : BlockInv s) (hx : decCycle p s = .next t) :
    BlockInv t := by
  unfold Machine.decCycle at hx
  split at hx
  next => exact h.exec (decode_wellFormed _ _) hx
  next =>
    obtain ⟨henc, hencOut, hdec, -⟩ := h
    cases hx
    exact ⟨henc, hencOut, hdec, DecOutInv.of_out_eq_idle rfl⟩

/-- Settles O32. -/
theorem invariantAtReset : Obligations.InvariantAtReset := by
  unfold Obligations.InvariantAtReset
  decide

/-- Settles O33: a reset cycle gives the reset state, for which it is O32; otherwise each unit's part of the
cycle, an accepted instruction or a quiet cycle, keeps the invariants. -/
theorem invariantKeptByStep : Obligations.InvariantKeptByStep := by
  intro s t h hstep
  obtain ⟨-, rfl⟩ | ⟨-, -, u, hu, ht⟩ | ⟨-, -, rfl⟩ := cycle_next hstep
  · exact invariantAtReset
  · exact (BlockInv.encCycle (s := takePins s) h hu).decCycle ht
  · exact h

/-! ### What the steps leave unchanged, and the decoder's position and skip flag -/

theorem EncUnit.prefix_after_emitted (u : EncUnit) (i : Instr) : u.emitted <+: (u.after i).emitted := by
  cases i with
  | encByte b =>
    simp only [EncUnit.after]
    split
    next => exact List.prefix_append ..
    next => exact List.prefix_rfl
  | encEnd => exact List.prefix_append ..
  | decPad | decChar | decEnd => exact List.prefix_rfl

/-- Settles O16: by `exec_eq` a step changes the two units only, and one of the encoder leaves the decoder. -/
theorem encoderFrame : Obligations.EncoderFrame := by
  intro i s t hport h
  obtain rfl := eq_of_exec_eq_next h
  exact ⟨DecUnit.after_of_enc _ hport, rfl, rfl, s.enc.prefix_after_emitted i⟩

/-- The frame on the decoder alone: the step takes the fault, or it leaves the fault fields. -/
theorem DecUnit.after_frame (u : DecUnit) {i : Instr} (h : i.port = .dec) :
    u.emitted <+: (u.after i).emitted ∧
      (((u.after i).fault = u.fault ∧ (u.after i).fcode = u.fcode ∧ (u.after i).fchar = u.fchar) ∨
        ∃ c, i = .decChar c ∧ (invRom c).valid = false ∧ u.skip = false ∧ u.fault = false ∧
          u.after i = u.quiet.recordFault .invalidCharacter c) := by
  obtain ⟨-, heq⟩ | ⟨-, -, heq⟩ | ⟨-, -, heq⟩ | ⟨-, c, -, -, -, heq⟩ | ⟨hf, c, hi, hs, hv, heq⟩ :=
    u.after_cases h
  · rw [heq]; exact ⟨List.prefix_rfl, .inl ⟨rfl, rfl, rfl⟩⟩
  · rw [heq]; exact ⟨List.prefix_append .., .inl ⟨rfl, rfl, rfl⟩⟩
  · rw [heq]; exact ⟨u.prefix_receive_emitted _ _ _, .inl ⟨by simp, by simp, by simp⟩⟩
  · rw [heq]; exact ⟨u.prefix_receive_emitted _ _ _, .inl ⟨by simp, by simp, by simp⟩⟩
  · exact ⟨by rw [heq]; exact List.prefix_rfl, .inr ⟨c, hi, hv, hs, hf, heq⟩⟩

/-- Settles O25: by `exec_eq` a step changes the two units only, and one of the decoder leaves the encoder. -/
theorem decoderFrame : Obligations.DecoderFrame := by
  intro i s t hport h
  obtain rfl := eq_of_exec_eq_next h
  obtain ⟨hemitted, hfault⟩ := s.dec.after_frame hport
  refine ⟨EncUnit.after_of_dec _ hport, rfl, rfl, hemitted, hfault.imp_right ?_⟩
  rintro ⟨c, hi, hv, hs, hf, heq⟩
  rw [State.withDec_dec, heq]
  exact ⟨⟨c, hi, hv⟩, hs, hf, rfl, rfl, rfl, rfl, rfl⟩

/-- A data command that does not fault receives a character; `DEC.CHAR` of `=` is among them. -/
theorem DecUnit.after_dataCommand_eq_receive {u : DecUnit} {i : Instr}
    (hi : i = .decPad ∨ ∃ c, i = .decChar c) (hu : u.fault = false) (h : (u.after i).fault = false) :
    ∃ a n k, u.after i = u.receive a n k := by
  have hport : i.port = .dec := by obtain rfl | ⟨c, rfl⟩ := hi <;> rfl
  obtain ⟨hf, -⟩ | ⟨-, ⟨d, rfl⟩, -⟩ | ⟨-, -, heq⟩ | ⟨-, c, -, -, -, heq⟩ | ⟨-, c, -, -, -, heq⟩ :=
    u.after_cases hport
  · simp [hu] at hf
  · simp at hi
  · exact ⟨_, _, _, heq⟩
  · exact ⟨_, _, _, heq⟩
  · simp [heq] at h

/-- No instruction but `DEC.PAD` sets `DEC.SKIP`. -/
theorem DecUnit.skip_of_after_skip {u : DecUnit} {i : Instr} (hi : i ≠ .decPad)
    (h : (u.after i).skip = true) : u.skip = true := by
  cases hport : i.port with
  | enc => rwa [DecUnit.after_of_enc _ hport] at h
  | dec =>
    obtain ⟨-, heq⟩ | ⟨-, -, heq⟩ | ⟨-, hign, -⟩ | ⟨-, c, -, -, -, heq⟩ | ⟨-, c, -, -, -, heq⟩ :=
      u.after_cases hport
    · rwa [heq] at h
    · simp [heq] at h
    · obtain ⟨-, hskip⟩ := hign.resolve_left hi
      exact hskip
    · simp [heq] at h
    · rwa [heq] at h

/-- Settles O23: a data command that does not fault receives a character, END closes, reset clears. -/
theorem positionCountsEveryCharacter : Obligations.PositionCountsEveryCharacter := by
  refine ⟨fun i s t hi hf h hft => ?_, fun d s t hf h => ?_, fun s t hrst h => ?_⟩
  · obtain rfl := eq_of_exec_eq_next h
    obtain ⟨a, n, k, heq⟩ := DecUnit.after_dataCommand_eq_receive hi hf hft
    rw [State.withDec_dec, heq, DecUnit.receive_pos, BitVec.toNat_add]
    rfl
  · obtain rfl := eq_of_exec_eq_next h
    rw [State.withDec_dec, DecUnit.after_decEnd hf, DecUnit.close_pos]
  · obtain ⟨-, rfl⟩ | ⟨hno, -⟩ | ⟨hno, -⟩ := cycle_next h
    · rfl
    · simp [hrst] at hno
    · simp [hrst] at hno

/-- Settles O24: `receive` sets `DEC.SKIP` to the flag it is given, unless the chunk closes. -/
theorem skipIsSetByPadOnly : Obligations.SkipIsSetByPadOnly := by
  refine ⟨fun s hf hpos => ⟨_, exec_eq _ s, ?_⟩, fun i s t hi h ht => ?_, fun i s t hi hf hpos h hft => ?_,
    fun d s t hf h => ?_⟩
  · rw [State.withDec_dec, DecUnit.after_decPad hf, DecUnit.receive_skip, if_neg hpos]
  · obtain rfl := eq_of_exec_eq_next h
    exact DecUnit.skip_of_after_skip hi ht
  · obtain rfl := eq_of_exec_eq_next h
    obtain ⟨a, n, k, heq⟩ := DecUnit.after_dataCommand_eq_receive hi hf hft
    rw [State.withDec_dec, heq, DecUnit.receive_skip, if_pos hpos]
  · obtain rfl := eq_of_exec_eq_next h
    rw [State.withDec_dec, DecUnit.after_decEnd hf, DecUnit.close_skip]

/-! ### The open group and the open chunk -/

/-- What is left of `l` after the last whole piece of `k`. -/
def openTail {α : Type} (k : Nat) (l : List α) : List α :=
  l.drop (k * (l.length / k))

theorem openTail_length {α : Type} (k : Nat) (l : List α) : (openTail k l).length = l.length % k := by
  rw [openTail, List.length_drop, Nat.mod_eq_sub]

/-- One more element completes the open piece or stays in it. -/
theorem openTail_append_singleton {α : Type} {k : Nat} (hk : 0 < k) (l : List α) (x : α) :
    openTail k (l ++ [x]) = if (openTail k l).length + 1 = k then [] else openTail k l ++ [x] := by
  have hsucc : (l ++ [x]).length = k * (l.length / k) + (l.length % k + 1) := by
    rw [List.length_append, List.length_singleton, ← Nat.add_assoc, Nat.div_add_mod]
  rw [openTail_length]
  split
  next hfull =>
    rw [← List.length_eq_zero_iff, openTail_length, hsucc, Nat.mul_add_mod, hfull, Nat.mod_self]
  next hopen =>
    have hdiv : (l ++ [x]).length / k = l.length / k := by
      have hlt : l.length % k + 1 < k := Nat.lt_of_le_of_ne (Nat.mod_lt _ hk) hopen
      rw [hsucc, Nat.mul_add_div hk, Nat.div_eq_of_lt hlt, Nat.add_zero]
    rw [openTail, hdiv, List.drop_append_of_le_length (Nat.mul_div_le _ _), openTail]

/-- The concatenation of bytes takes one more byte as the accumulator does (R101). -/
theorem concatBytes_append_singleton (g : List Byte) (b : Byte) :
    concatBytes (g ++ [b]) = shiftInByte (concatBytes g) b := by
  rw [shiftInByte_eq_ofNat]
  apply BitVec.eq_of_toNat_eq
  simp only [concatBytes, List.foldl_append, List.foldl_cons, List.foldl_nil, BitVec.toNat_ofNat]
  omega

/-- The concatenation of sextets takes one more sextet as the accumulator does (R122). -/
theorem concatSextets_append_singleton (g : List Sextet) (i : Sextet) :
    concatSextets (g ++ [i]) = shiftInSextet (concatSextets g) i := by
  rw [shiftInSextet_eq_ofNat]
  apply BitVec.eq_of_toNat_eq
  simp only [concatSextets, List.foldl_append, List.foldl_cons, List.foldl_nil, BitVec.toNat_ofNat]
  omega

/-- `ENC.ACC` and `ENC.CNT` are the bytes `g` and their number (R21, R22). -/
def EncUnit.HoldsGroup (u : EncUnit) (g : List Byte) : Prop :=
  u.acc = concatBytes g ∧ u.cnt.toNat = g.length

theorem EncUnit.HoldsGroup.after_encByte {u : EncUnit} {g : List Byte} (h : u.HoldsGroup g)
    (hg : g.length < 3) (b : Byte) :
    (u.after (.encByte b)).HoldsGroup (if g.length + 1 = 3 then [] else g ++ [b]) := by
  obtain ⟨hacc, hcnt⟩ := h
  simp only [EncUnit.after, Config.encGroup_eq, hcnt, hacc]
  split
  next => exact ⟨rfl, rfl⟩
  next =>
    refine ⟨(concatBytes_append_singleton g b).symm, ?_⟩
    rw [EncUnit.hold_cnt, encCntFor_of_lt _ (by omega), BitVec.toNat_ofNat, List.length_append,
      List.length_singleton]
    omega

theorem EncUnit.holdsGroup_of_foldl {u : EncUnit} (h : EncIdle u) (p : List Byte) :
    ((p.map Instr.encByte).foldl EncUnit.after u).HoldsGroup (openTail 3 p) := by
  induction p using List.reverseRecOn with
  | nil =>
    obtain ⟨hacc, hcnt⟩ := h
    exact ⟨hacc, congrArg BitVec.toNat hcnt⟩
  | append_singleton p b ih =>
    rw [List.map_append, List.foldl_append, openTail_append_singleton (by decide)]
    exact ih.after_encByte (by rw [openTail_length]; exact Nat.mod_lt _ (by decide)) b

/-- Settles O17, by induction on the list of bytes from its end. -/
theorem encoderHoldsTheOpenGroup : Obligations.EncoderHoldsTheOpenGroup := by
  intro p s h
  obtain ⟨hacc, hcnt⟩ := EncUnit.holdsGroup_of_foldl h p
  exact ⟨_, execAll_eq _ s, hacc, hcnt.trans (openTail_length 3 p)⟩

/-- The consumed characters of a chunk `g`: those before its first `=` (R153). -/
def consumedIn (g : List Byte) : List Byte :=
  g.takeWhile (· != padChar)

theorem consumedOf_eq (x : List Byte) (k : Nat) : consumedOf x k = consumedIn (chunkOf x k) := rfl

theorem consumedIn_eq_self_iff {g : List Byte} : consumedIn g = g ↔ g.contains padChar = false := by
  rw [consumedIn, List.takeWhile_eq_self_iff, List.contains_eq_mem, decide_eq_false_iff_not]
  exact ⟨fun h hpad => by simpa using h _ hpad, fun h c hc => bne_iff_ne.mpr fun hpad => h (hpad ▸ hc)⟩

/-- Nothing is consumed after the first `=`. -/
theorem consumedIn_append_of_contains {g : List Byte} (h : g.contains padChar = true) (x : List Byte) :
    consumedIn (g ++ x) = consumedIn g := by
  refine List.takeWhile_append.trans (if_neg fun hlen => ?_)
  have hself : consumedIn g = g := (List.takeWhile_prefix _).eq_of_length hlen
  rw [consumedIn_eq_self_iff, h] at hself
  cases hself

theorem consumedIn_append_of_not_contains {g : List Byte} (h : g.contains padChar = false) (x : List Byte) :
    consumedIn (g ++ x) = g ++ consumedIn x :=
  List.takeWhile_append_of_pos (List.takeWhile_eq_self_iff.mp (consumedIn_eq_self_iff.mpr h))

theorem consumedIn_isPrefix {g g' : List Byte} (h : g <+: g') : consumedIn g <+: consumedIn g' := by
  obtain ⟨x, rfl⟩ := h
  cases hg : g.contains padChar with
  | true => rw [consumedIn_append_of_contains hg]
  | false =>
    rw [consumedIn_append_of_not_contains hg, consumedIn_eq_self_iff.mpr hg]
    exact List.prefix_append ..

/-- The open chunk is the one after the last whole chunk. -/
theorem chunkOf_length_div (x : List Byte) : chunkOf x (x.length / 4) = openTail 4 x := by
  refine List.take_of_length_le (?_ : (openTail 4 x).length ≤ 4)
  rw [openTail_length]
  omega

/-- A text has no invalid consumed character when none of its chunks has; a chunk past the end is empty. -/
theorem firstInvalid_eq_none_iff {x : List Byte} :
    firstInvalid x = none ↔ ∀ k, ∀ c ∈ consumedOf x k, (invRom c).valid = true := by
  simp only [firstInvalid, List.find?_eq_none, List.mem_flatMap, chunkNumbers, List.mem_range,
    Bool.not_eq_true, Bool.not_eq_false', forall_exists_index, and_imp]
  refine ⟨fun h k c hc => ?_, fun h c k _ hc => h k c hc⟩
  by_cases hk : k < (x.length + 3) / 4
  · exact h c k hk hc
  · have hempty : chunkOf x k = [] := by rw [chunkOf, List.drop_of_length_le (by omega), List.take_nil]
    simp [consumedOf_eq, hempty, consumedIn] at hc

theorem firstInvalid_eq_none_of_isPrefix {x y : List Byte} (h : x <+: y) (hy : firstInvalid y = none) :
    firstInvalid x = none := by
  rw [firstInvalid_eq_none_iff] at hy ⊢
  exact fun k c hc => hy k c ((consumedIn_isPrefix ((h.drop _).take _)).subset hc)

/-- The next character of the open chunk is valid when it is consumed and the text has no invalid one. -/
theorem valid_of_mem_consumedIn_openTail {x : List Byte} {c : Byte} (h : firstInvalid (x ++ [c]) = none)
    (hc : c ∈ consumedIn (openTail 4 x ++ [c])) : (invRom c).valid = true := by
  have hchunk : chunkOf (x ++ [c]) (x.length / 4) = openTail 4 x ++ [c] := by
    have hlen : (openTail 4 x ++ [c]).length ≤ 4 := by
      rw [List.length_append, openTail_length, List.length_singleton]; omega
    rw [chunkOf, List.drop_append_of_le_length (by omega)]
    exact List.take_of_length_le hlen
  refine firstInvalid_eq_none_iff.mp h (x.length / 4) c ?_
  rwa [consumedOf_eq, hchunk]

/-- The concatenated indices of the characters `g` (R28). -/
def concatIndices (g : List Byte) : Acc :=
  concatSextets (g.map fun c => (invRom c).idx)

theorem concatIndices_append_singleton (g : List Byte) (c : Byte) :
    concatIndices (g ++ [c]) = shiftInSextet (concatIndices g) (invRom c).idx := by
  rw [concatIndices, List.map_append, List.map_singleton, concatSextets_append_singleton, concatIndices]

/-- `DEC.ACC`, `CNT`, `POS` and `SKIP` describe the open chunk `g`, and no fault is recorded (R28 to R32). -/
def DecUnit.HoldsChunk (u : DecUnit) (g : List Byte) : Prop :=
  u.fault = false ∧ u.acc = concatIndices (consumedIn g) ∧ u.cnt.toNat = (consumedIn g).length ∧
    u.pos.toNat = g.length ∧ u.skip = g.contains padChar

/-- The command of a next valid character receives it: what is consumed then is what the longer chunk
consumes, and `DEC.SKIP` says whether that chunk contains `=`. -/
theorem DecUnit.HoldsChunk.after_charCommand_eq {u : DecUnit} {g : List Byte} (h : u.HoldsChunk g) {c : Byte}
    (hc : c ∈ consumedIn (g ++ [c]) → (invRom c).valid = true) :
    u.after (charCommand c) = u.receive (concatIndices (consumedIn (g ++ [c])))
      (consumedIn (g ++ [c])).length ((g ++ [c]).contains padChar) := by
  obtain ⟨hfault, hacc, hcnt, -, hskip⟩ := h
  cases hg : g.contains padChar with
  | true =>
    rw [consumedIn_append_of_contains hg, ← hacc, ← hcnt]
    have hcontains : (g ++ [c]).contains padChar = true := by rw [List.contains_append, hg, Bool.true_or]
    rw [hcontains]
    rw [hg] at hskip
    by_cases hpad : c = padChar
    · rw [charCommand, if_pos hpad, DecUnit.after_decPad hfault]
    · simp [charCommand, hpad, DecUnit.after, hfault, hskip]
  | false =>
    have hself := consumedIn_eq_self_iff.mpr hg
    rw [hself] at hacc hcnt
    rw [consumedIn_append_of_not_contains hg] at hc ⊢
    by_cases hpad : c = padChar
    · have hcontains : (g ++ [c]).contains padChar = true := by simp [hpad]
      have hnone : consumedIn [c] = [] := by simp [consumedIn, hpad]
      rw [hcontains, hnone, List.append_nil, ← hacc, ← hcnt, charCommand, if_pos hpad,
        DecUnit.after_decPad hfault]
    · have hcontains : [c].contains padChar = false := by simpa using Ne.symm hpad
      have hone : consumedIn [c] = [c] := consumedIn_eq_self_iff.mpr hcontains
      rw [hone] at hc ⊢
      have hvalid : (invRom c).valid = true := hc (by simp)
      rw [concatIndices_append_singleton, ← hacc, List.length_append, ← hcnt, List.contains_append, hg,
        hcontains]
      simp [charCommand, hpad, DecUnit.after, hfault, hskip.trans hg, hvalid]

theorem DecUnit.HoldsChunk.after_charCommand {u : DecUnit} {g : List Byte} (h : u.HoldsChunk g)
    (hg : g.length < 4) {c : Byte} (hc : c ∈ consumedIn (g ++ [c]) → (invRom c).valid = true) :
    (u.after (charCommand c)).HoldsChunk (if g.length + 1 = 4 then [] else g ++ [c]) := by
  rw [h.after_charCommand_eq hc]
  obtain ⟨hfault, -, -, hpos, -⟩ := h
  have hlast : u.pos = 3 ↔ g.length + 1 = 4 := by bv_omega
  unfold DecUnit.receive
  simp only [Config.lastPos_eq, hlast]
  split
  next => exact ⟨hfault, rfl, rfl, rfl, rfl⟩
  next hopen =>
    have hle : (consumedIn (g ++ [c])).length ≤ (g ++ [c]).length := (List.takeWhile_prefix _).length_le
    have hlen : (g ++ [c]).length = g.length + 1 := List.length_append
    refine ⟨hfault, rfl, ?_, ?_, rfl⟩
    · rw [DecUnit.advance_cnt, decCntFor_of_lt _ _ (by omega), BitVec.toNat_ofNat]; omega
    · rw [DecUnit.advance_pos, hlen, ← hpos]; bv_omega

theorem DecUnit.holdsChunk_of_foldl {u : DecUnit} (h : DecIdle u) (x : List Byte)
    (hx : firstInvalid x = none) :
    ((x.map charCommand).foldl DecUnit.after u).HoldsChunk (openTail 4 x) := by
  induction x using List.reverseRecOn with
  | nil =>
    obtain ⟨hacc, hcnt, hpos, hskip, hfault, -, -⟩ := h
    exact ⟨hfault, hacc, congrArg BitVec.toNat hcnt, congrArg BitVec.toNat hpos, hskip⟩
  | append_singleton x c ih =>
    rw [List.map_append, List.foldl_append, openTail_append_singleton (by decide)]
    exact (ih (firstInvalid_eq_none_of_isPrefix (List.prefix_append ..) hx)).after_charCommand
      (by rw [openTail_length]; exact Nat.mod_lt _ (by decide)) (valid_of_mem_consumedIn_openTail hx)

/-- Settles O26, by induction on the text from its end. -/
theorem decoderHoldsTheOpenChunk : Obligations.DecoderHoldsTheOpenChunk := by
  intro x s h hx
  obtain ⟨hfault, hacc, hcnt, hpos, hskip⟩ := DecUnit.holdsChunk_of_foldl h x hx
  rw [consumedOf_eq, chunkOf_length_div]
  exact ⟨_, execAll_eq _ s, hfault, hacc, hcnt, hpos.trans (openTail_length 4 x), hskip⟩

/-! ### Reset values and the fault pins -/

/-- Settles O30. -/
theorem resetRegisterValues : Obligations.ResetRegisterValues := by
  unfold Obligations.ResetRegisterValues
  decide

/-- Settles O40: the pins are the registers, and `DEC.FCODE` holds one of two codes. -/
theorem faultPinsShowTheFaultRegisters : Obligations.FaultPinsShowTheFaultRegisters := by
  refine ⟨fun p s t => ⟨rfl, rfl, rfl⟩, fun p t => ⟨rfl, rfl, rfl⟩, fun c => ?_⟩
  cases c with
  | none => exact .inl rfl
  | invalidCharacter => exact .inr rfl

end Sys2Proof.Machine
end

section
/-! PROOFS. The two constant tables (20_memory.md R50 to R57). The 64 entries of the Alphabet are read once: its
closed form, and that the inverse ROM undoes it. What the inverse ROM holds at each of the 256 codes follows
from these, without a look at the codes one by one. -/

namespace Sys2Proof.Machine

/-! ### The Alphabet ROM -/

/-- R52, entry by entry of the table of R51. -/
theorem alphabet_closedForm : ∀ i : Sextet,
    alphabet i =
      (if i.toNat ≤ 25 then BitVec.ofNat 8 (0x41 + i.toNat)
       else if i.toNat ≤ 51 then BitVec.ofNat 8 (0x61 + (i.toNat - 26))
       else if i.toNat ≤ 61 then BitVec.ofNat 8 (0x30 + (i.toNat - 52))
       else if i.toNat = 62 then 0x2B
       else 0x2F) := by decide

/-- The ranges of R52 on numbers: the character code at index `n`. -/
def alphabetCode (n : Nat) : Nat :=
  if n ≤ 25 then 0x41 + n
  else if n ≤ 51 then 0x61 + (n - 26)
  else if n ≤ 61 then 0x30 + (n - 52)
  else if n = 62 then 0x2B
  else 0x2F

theorem alphabet_toNat (i : Sextet) : (alphabet i).toNat = alphabetCode i.toNat := by
  rw [alphabet_closedForm, alphabetCode]
  split_ifs <;> simp <;> omega

theorem alphabet_ofNat_eq {n : Nat} {c : Byte} (hn : n < 64) (h : alphabetCode n = c.toNat) :
    alphabet (BitVec.ofNat 6 n) = c :=
  BitVec.eq_of_toNat_eq (by rw [alphabet_toNat, BitVec.toNat_ofNat, Nat.mod_eq_of_lt hn, h])

theorem alphabet_msb : ∀ i : Sextet, (alphabet i).msb = false := by decide

theorem alphabet_ne_padChar : ∀ i : Sextet, alphabet i ≠ padChar := by decide

theorem alphabet_toNat_lt (i : Sextet) : (alphabet i).toNat < 0x80 :=
  BitVec.toNat_lt_of_msb_false (alphabet_msb i)

theorem mem_alphabetTable_iff {c : Byte} : c ∈ alphabetTable ↔ ∃ i, alphabet i = c := by
  constructor
  · intro h
    obtain ⟨n, hn, rfl⟩ := List.getElem_of_mem h
    have hindex : (BitVec.ofNat 6 n).toNat = n := by
      rw [BitVec.toNat_ofNat, Nat.mod_eq_of_lt (show n < 64 from hn)]
    exact ⟨BitVec.ofNat 6 n, by rw [alphabet, hindex, List.getD_eq_getElem _ _ hn]⟩
  · rintro ⟨i, rfl⟩
    have hi : i.toNat < alphabetTable.length := i.isLt
    rw [alphabet, List.getD_eq_getElem _ _ hi]
    exact List.getElem_mem hi

/-! ### The inverse ROM -/

/-- The search of R54 finds every index of the Alphabet again. -/
theorem invRom_alphabet : ∀ i : Sextet, invRom (alphabet i) = { valid := true, idx := i } := by decide

theorem invRom_of_alphabet_eq {c : Byte} {i : Sextet} (h : alphabet i = c) :
    invRom c = { valid := true, idx := i } :=
  h ▸ invRom_alphabet i

theorem invRom_of_alphabet_ne {c : Byte} (h : ∀ i, alphabet i ≠ c) :
    invRom c = { valid := false, idx := 0 } := by
  have hnone : alphabetTable.findIdx? (· == c) = none := by
    refine List.findIdx?_eq_none_iff.mpr fun x hx => ?_
    obtain ⟨i, rfl⟩ := mem_alphabetTable_iff.mp hx
    exact beq_false_of_ne (h i)
  rw [invRom, hnone]

theorem alphabet_invRom_idx {c : Byte} (h : (invRom c).valid = true) : alphabet (invRom c).idx = c := by
  by_cases hc : ∃ i, alphabet i = c
  · obtain ⟨i, rfl⟩ := hc
    rw [invRom_alphabet]
  · rw [invRom_of_alphabet_ne (not_exists.mp hc)] at h
    cases h

theorem alphabet_injective : Function.Injective alphabet := fun i j h => by
  have hentry := (invRom_alphabet i).symm.trans (invRom_of_alphabet_eq h.symm)
  exact congrArg InvEntry.idx hentry

/-- R55: in each valid range the closed form of the Alphabet leads back to `c`; outside them no index does. -/
theorem invRom_byRange (c : Byte) :
    invRom c =
      (if c.toNat = 0x2B then { valid := true, idx := 62 }
       else if c.toNat = 0x2F then { valid := true, idx := 63 }
       else if 0x30 ≤ c.toNat ∧ c.toNat ≤ 0x39 then { valid := true, idx := BitVec.ofNat 6 (c.toNat + 4) }
       else if 0x41 ≤ c.toNat ∧ c.toNat ≤ 0x5A then { valid := true, idx := BitVec.ofNat 6 (c.toNat - 0x41) }
       else if 0x61 ≤ c.toNat ∧ c.toNat ≤ 0x7A then { valid := true, idx := BitVec.ofNat 6 (c.toNat - 0x47) }
       else { valid := false, idx := 0 }) := by
  split_ifs with hplus hslash hdigit hupper hlower
  · exact invRom_of_alphabet_eq (BitVec.eq_of_toNat_eq hplus.symm)
  · exact invRom_of_alphabet_eq (BitVec.eq_of_toNat_eq hslash.symm)
  · exact invRom_of_alphabet_eq (alphabet_ofNat_eq (by omega) (by unfold alphabetCode; split_ifs <;> omega))
  · exact invRom_of_alphabet_eq (alphabet_ofNat_eq (by omega) (by unfold alphabetCode; split_ifs <;> omega))
  · exact invRom_of_alphabet_eq (alphabet_ofNat_eq (by omega) (by unfold alphabetCode; split_ifs <;> omega))
  · refine invRom_of_alphabet_ne fun i hi => ?_
    have hcode := alphabet_toNat i
    rw [hi, alphabetCode] at hcode
    split_ifs at hcode <;> omega

theorem invRom_valid_iff {c : Byte} : (invRom c).valid = true ↔ c ∈ alphabetTable := by
  rw [mem_alphabetTable_iff]
  exact ⟨fun h => ⟨_, alphabet_invRom_idx h⟩, fun ⟨_, h⟩ => by rw [invRom_of_alphabet_eq h]⟩

/-- The valid codes are the 64 distinct entries of the Alphabet, in another order. -/
theorem filter_invRom_valid_perm :
    ((List.range 256).filter fun n => (invRom (BitVec.ofNat 8 n)).valid).Perm
      (alphabetTable.map BitVec.toNat) := by
  refine (List.perm_ext_iff_of_nodup (List.nodup_range.filter _) (by decide)).mpr fun n => ?_
  rw [List.mem_filter, List.mem_range, invRom_valid_iff, List.mem_map]
  constructor
  · rintro ⟨hn, hmem⟩
    exact ⟨_, hmem, by rw [BitVec.toNat_ofNat, Nat.mod_eq_of_lt hn]⟩
  · rintro ⟨c, hc, rfl⟩
    exact ⟨c.isLt, by rwa [BitVec.ofNat_toNat, BitVec.setWidth_eq]⟩

theorem count_invRom_valid :
    ((List.range 256).filter fun n => (invRom (BitVec.ofNat 8 n)).valid).length = 64 :=
  filter_invRom_valid_perm.length_eq

/-- The rest of the 256 codes. -/
theorem count_invRom_invalid :
    ((List.range 256).filter fun n => !(invRom (BitVec.ofNat 8 n)).valid).length = 192 := by
  have hall := List.length_eq_length_filter_add (l := List.range 256)
    fun n => (invRom (BitVec.ofNat 8 n)).valid
  rw [count_invRom_valid, List.length_range] at hall
  omega

/-! ### The statements -/

/-- Settles O1. -/
theorem alphabetRomClosedForm : Obligations.AlphabetRomClosedForm :=
  ⟨rfl, fun i => ⟨alphabet_closedForm i, alphabet_msb i⟩⟩

/-- Settles O2: the inverse ROM undoes the Alphabet, which is therefore injective. -/
theorem alphabetCodesDistinct : Obligations.AlphabetCodesDistinct :=
  ⟨fun _ _ h => alphabet_injective h, fun i => ⟨alphabet_ne_padChar i, alphabet_toNat_lt i⟩⟩

/-- Settles O3. -/
theorem inverseRomFindsTheIndex : Obligations.InverseRomFindsTheIndex :=
  ⟨fun _ _ => invRom_of_alphabet_eq, fun _ => invRom_of_alphabet_ne⟩

/-- Settles O4. -/
theorem inverseRomByRange : Obligations.InverseRomByRange :=
  ⟨invRom_byRange, count_invRom_valid, count_invRom_invalid, invRom_alphabet,
    fun _ => alphabet_invRom_idx, by decide, by decide⟩

end Sys2Proof.Machine
end

section
/-! PROOFS. The command word and the opcode map (30_encoding.md R80, R83, R84): a word is its end bit and its
data field, the row it selects gives its instruction, and every word selects a row. -/

namespace Sys2Proof

/-! ### The fields of a command word -/

/-- The field `end`, `cmd[8]` (R80). -/
def endBit (w : CmdWord) : BitVec 1 :=
  w.extractLsb' 8 1

theorem dataField_eq_setWidth (w : CmdWord) : dataField w = w.setWidth 8 :=
  (BitVec.setWidth_eq_extractLsb' (by decide)).symm

@[simp] theorem dataField_cmdWord (e : BitVec 1) (d : Byte) : dataField (cmdWord e d) = d :=
  BitVec.extractLsb'_append_eq_right

theorem cmdWord_endBit_dataField (w : CmdWord) : cmdWord (endBit w) (dataField w) = w :=
  (BitVec.extractLsb'_append_extractLsb'_eq_extractLsb' (by decide)).trans BitVec.extractLsb'_eq_self

/-- The mask of all rows but that of `DEC.PAD` keeps the end bit and clears the data. -/
theorem and_endMask (w : CmdWord) : w &&& 0x100 = cmdWord (endBit w) 0 := by
  calc w &&& 0x100
      = cmdWord (endBit w) (dataField w) &&& cmdWord 1 0 := by rw [cmdWord_endBit_dataField]; rfl
    _ = cmdWord (endBit w &&& 1) (dataField w &&& 0) := BitVec.and_append
    _ = cmdWord (endBit w) 0 := congrArg₂ cmdWord BitVec.and_allOnes BitVec.and_zero

/-! ### The rows of the opcode map -/

theorem rowSelects_iff {r : OpcodeRow} {w : CmdWord} : rowSelects r w = true ↔ w &&& r.mask = r.pattern :=
  beq_iff_eq

/-- The row of `ENC.BYTE` and of `DEC.CHAR`. -/
theorem rowSelects_decCharRow_iff {w : CmdWord} : rowSelects decCharRow w = true ↔ endBit w = 0 := by
  rw [rowSelects_iff, decCharRow, and_endMask]
  generalize endBit w = e
  revert e; decide

/-- The row of `ENC.END` and of `DEC.END`. -/
theorem rowSelects_decEndRow_iff {w : CmdWord} : rowSelects decEndRow w = true ↔ endBit w = 1 := by
  rw [rowSelects_iff, decEndRow, and_endMask]
  generalize endBit w = e
  revert e; decide

theorem rowSelects_decPadRow_iff {w : CmdWord} : rowSelects decPadRow w = true ↔ w = cmdWord 0 0x3D := by
  rw [rowSelects_iff, decPadRow, show w &&& 0x1FF = w from BitVec.and_allOnes]
  rfl

/-- The rows of a data command and of an `END` divide the words between them (R84). -/
theorem rowSelects_char_or_end (w : CmdWord) :
    rowSelects decCharRow w = true ∨ rowSelects decEndRow w = true := by
  rw [rowSelects_decCharRow_iff, rowSelects_decEndRow_iff]
  exact BitVec.eq_zero_or_eq_one _

theorem not_rowSelects_char_of_end {w : CmdWord} (h : rowSelects decEndRow w = true) :
    ¬ rowSelects decCharRow w = true := by
  rw [rowSelects_decCharRow_iff, rowSelects_decEndRow_iff.mp h]
  decide

theorem cmdWord_zero_dataField {w : CmdWord} (h : rowSelects decCharRow w = true) :
    cmdWord 0 (dataField w) = w := by
  rw [← rowSelects_decCharRow_iff.mp h, cmdWord_endBit_dataField]

theorem cmdWord_one_dataField {w : CmdWord} (h : rowSelects decEndRow w = true) :
    cmdWord 1 (dataField w) = w := by
  rw [← rowSelects_decEndRow_iff.mp h, cmdWord_endBit_dataField]

/-! ### What each row decodes to -/

theorem decode_enc_of_byteRow {w : CmdWord} (h : rowSelects encByteRow w = true) :
    decode .enc w = .encByte (dataField w) :=
  if_pos h

theorem decode_enc_of_endRow {w : CmdWord} (h : rowSelects encEndRow w = true) :
    decode .enc w = .encEnd (dataField w) :=
  if_neg (not_rowSelects_char_of_end h)

theorem decode_dec_of_padRow {w : CmdWord} (h : rowSelects decPadRow w = true) : decode .dec w = .decPad :=
  if_pos h

theorem decode_dec_of_charRow {w : CmdWord} (h : rowSelects decCharRow w = true) (hpad : dataField w ≠ 0x3D) :
    decode .dec w = .decChar (dataField w) := by
  have hnot : ¬ rowSelects decPadRow w = true := fun hw => hpad (by
    rw [rowSelects_decPadRow_iff.mp hw, dataField_cmdWord])
  rw [decode, decodeDec, if_neg hnot, if_pos h]

theorem decode_dec_of_endRow {w : CmdWord} (h : rowSelects decEndRow w = true) :
    decode .dec w = .decEnd (dataField w) := by
  have hchar := not_rowSelects_char_of_end h
  have hpad : ¬ rowSelects decPadRow w = true := fun hw =>
    hchar (by rw [rowSelects_decPadRow_iff.mp hw]; decide)
  rw [decode, decodeDec, if_neg hpad, if_neg hchar]

@[simp] theorem decode_port (p : Port) (w : CmdWord) : (decode p w).port = p := by
  cases p with
  | enc => simp only [decode, decodeEnc]; split <;> rfl
  | dec =>
    simp only [decode, decodeDec]
    split
    · rfl
    · split <;> rfl

/-! ### The statements -/

/-- Settles O9: the word of an instruction selects the instruction's row, and holds its operand as its data
field. -/
theorem decodeOfEncode : Obligations.DecodeOfEncode := by
  intro i hwf
  cases i with
  | encByte b =>
    exact (decode_enc_of_byteRow (Laws.RowSelected.encByte b hwf)).trans
      (congrArg Instr.encByte (dataField_cmdWord 0 b))
  | encEnd d =>
    exact (decode_enc_of_endRow (Laws.RowSelected.encEnd d hwf)).trans
      (congrArg Instr.encEnd (dataField_cmdWord 1 d))
  | decPad => exact decode_dec_of_padRow (Laws.RowSelected.decPad hwf)
  | decChar c =>
    have hdata : dataField (encode (.decChar c)) = c := dataField_cmdWord 0 c
    have hpad : c ≠ 0x3D := by simpa [Instr.wellFormed] using hwf
    rw [Instr.port, decode_dec_of_charRow (Laws.RowSelected.decChar c hwf) (by rwa [hdata]), hdata]
  | decEnd d =>
    exact (decode_dec_of_endRow (Laws.RowSelected.decEnd d hwf)).trans
      (congrArg Instr.decEnd (dataField_cmdWord 1 d))

theorem encode_decode (p : Port) (w : CmdWord) : encode (decode p w) = w := by
  obtain hchar | hend := rowSelects_char_or_end w
  · cases p with
    | enc => rw [decode_enc_of_byteRow hchar, encode, cmdWord_zero_dataField hchar]
    | dec =>
      by_cases hpad : dataField w = 0x3D
      · have hw : w = cmdWord 0 0x3D := by rw [← hpad, cmdWord_zero_dataField hchar]
        rw [decode_dec_of_padRow (rowSelects_decPadRow_iff.mpr hw), encode, hw]
      · rw [decode_dec_of_charRow hchar hpad, encode, cmdWord_zero_dataField hchar]
  · cases p with
    | enc => rw [decode_enc_of_endRow hend, encode, cmdWord_one_dataField hend]
    | dec => rw [decode_dec_of_endRow hend, encode, cmdWord_one_dataField hend]

/-- Settles O10: the word is rebuilt from the row it selects and its data field. -/
theorem everyWordIsOneCommand : Obligations.EveryWordIsOneCommand := fun p w =>
  ⟨decode_port p w, Machine.decode_wellFormed p w, encode_decode p w⟩

/-- Settles O7: each clause is one row of the map. -/
theorem opcodeMap : Obligations.OpcodeMap := by
  intro w
  rw [← dataField_eq_setWidth]
  exact ⟨fun h => decode_enc_of_byteRow (rowSelects_iff.mpr h),
    fun h => decode_enc_of_endRow (rowSelects_iff.mpr h),
    fun h => decode_dec_of_padRow (rowSelects_iff.mpr h),
    fun h hpad => decode_dec_of_charRow (rowSelects_iff.mpr h) hpad,
    fun h => decode_dec_of_endRow (rowSelects_iff.mpr h)⟩

end Sys2Proof
end

section
/-! PROOFS. One cycle of the pins outside reset (30_encoding.md R91): each unit runs the command its port presents
or has a quiet cycle, and leaves the other unit. -/

namespace Sys2Proof.Machine

/-! ### The part of each unit -/

theorem encCycle_quiet {p : PinsIn} (h : p.encCmdValid = false) (s : State) :
    encCycle p s = .next (s.withEnc s.enc.quiet) := by
  simp [encCycle, h]

theorem encCycle_accepts {p : PinsIn} (hrst : p.rst = false) (h : p.encCmdValid = true) (s : State) :
    encCycle p s = exec (decode .enc p.encCmd) s := by
  simp [encCycle, encCmdReady, hrst, h]

theorem decCycle_quiet {p : PinsIn} {s : State} (h : p.decCmdValid = false ∨ decCmdReady p s = false) :
    decCycle p s = .next (s.withDec s.dec.quiet) := by
  unfold decCycle
  obtain h | h := h <;> simp [h]

/-- An instruction of `dec_cmd` run on a faulted decoder leaves no more than a quiet cycle does (R133). -/
theorem exec_of_fault {i : Instr} {s : State} (hport : i.port = .dec) (h : s.dec.fault = true) :
    exec i s = .next (s.withDec s.dec.quiet) := by
  have hquiet : s.dec.after i = s.dec.quiet := by
    obtain ⟨-, heq⟩ | ⟨hf, -⟩ | ⟨hf, -⟩ | ⟨hf, -⟩ | ⟨hf, -⟩ := s.dec.after_cases hport
    · exact heq
    all_goals simp [h] at hf
  rw [exec_eq, hquiet, EncUnit.after_of_dec _ hport]
  rfl

/-- A command presented on `dec_cmd` is run; that a faulted decoder does not accept it makes no difference. -/
theorem decCycle_runs {p : PinsIn} (hrst : p.rst = false) (h : p.decCmdValid = true) (s : State) :
    decCycle p s = exec (decode .dec p.decCmd) s := by
  cases hf : s.dec.fault with
  | true => rw [decCycle_quiet (.inr (by simp [decCmdReady, hf])), exec_of_fault (decode_port _ _) hf]
  | false => simp [decCycle, decCmdReady, hrst, h, hf]

theorem dec_of_encCycle {p : PinsIn} {s t : State} (h : encCycle p s = .next t) : t.dec = s.dec := by
  unfold encCycle at h
  split at h
  next =>
    obtain rfl := eq_of_exec_eq_next h
    exact DecUnit.after_of_enc _ (decode_port _ _)
  next => cases h; rfl

theorem enc_of_decCycle {p : PinsIn} {s t : State} (h : decCycle p s = .next t) : t.enc = s.enc := by
  unfold decCycle at h
  split at h
  next =>
    obtain rfl := eq_of_exec_eq_next h
    exact EncUnit.after_of_dec _ (decode_port _ _)
  next => cases h; rfl

/-! ### The step -/

theorem step_outside_reset {s : State} (hreset : s.wasReset = true) (hrst : (nextPins s).rst = false) :
    step s = andThen (encCycle (nextPins s) (takePins s)) (decCycle (nextPins s)) := by
  simp [step, cycle, hreset, hrst]

theorem step_of_input {s : State} {p : PinsIn} {rest : List PinsIn} (hreset : s.wasReset = true)
    (hinput : s.input = p :: rest) (hrst : p.rst = false) :
    step s = andThen (encCycle p { s with input := rest }) (decCycle p) := by
  have hpins : nextPins s = p := by rw [nextPins, hinput]; rfl
  have htake : takePins s = { s with input := rest } := by rw [takePins, hinput]; rfl
  rw [step_outside_reset hreset (by rw [hpins, hrst]), hpins, htake]

/-- Settles O39: the unit's own part of the cycle is quiet, and the other unit's part leaves it. -/
theorem unitWithoutACommandKeepsItsState : Obligations.UnitWithoutACommandKeepsItsState := by
  constructor
  · intro s t hreset hrst hidle h
    rw [step_outside_reset hreset hrst, encCycle_quiet hidle, andThen_next] at h
    exact enc_of_decCycle h
  · intro s t hreset hrst hidle h
    rw [step_outside_reset hreset hrst, andThen_eq_next] at h
    obtain ⟨u, hu, ht⟩ := h
    have hdec : u.dec = s.dec := (dec_of_encCycle hu).trans (takePins_dec s)
    rw [decCycle_quiet (by rwa [decCmdReady, hdec])] at ht
    cases ht
    rw [State.withDec_dec, hdec]
    rfl

/-- Settles O35: each unit's part of the cycle is its command's instruction, or quiet where none is presented. -/
theorem stepRunsTheAcceptedCommand : Obligations.StepRunsTheAcceptedCommand := by
  refine ⟨fun s p rest hreset hinput hrst henc hdec => ?_,
    fun s p rest hreset hinput hrst henc hdec _ => ?_, fun s p rest hreset hinput hrst henc hdec _ => ?_⟩
  · have hquiet : decCycle p = fun t => .next (t.withDec t.dec.quiet) :=
      funext fun _ => decCycle_quiet (.inl hdec)
    rw [step_of_input hreset hinput hrst, encCycle_accepts hrst henc, hquiet]
  · rw [step_of_input hreset hinput hrst, encCycle_quiet henc, andThen_next, decCycle_runs hrst hdec]
    rfl
  · rw [step_of_input hreset hinput hrst, encCycle_accepts hrst henc, funext (decCycle_runs hrst hdec)]

/-! ### Table words -/

theorem eq_decode_of_decodeTableWord {nbits w : Nat} {i : Instr} (h : decodeTableWord nbits w = some i) :
    i = decode (tablePort (w % 2 ^ nbits)) (tableCommand (w % 2 ^ nbits)) := by
  unfold decodeTableWord decodeTagged at h
  split at h
  next j heq =>
    split at heq
    · cases heq; cases h; rfl
    · cases heq
  next => cases h

theorem State.withFetchWord_input {nbits w : Nat} {port : Port} (h : tablePort (w % 2 ^ nbits) = port)
    (s : State) :
    (s.withFetchWord nbits w).input = present port (tableCommand (w % 2 ^ nbits)) :: s.input := by
  rw [State.withFetchWord, h]

/-- Settles O36: the step after `withFetchWord` presents the command word on the instruction's port. The second
clause also holds of a faulted decoder, which O35 leaves out. -/
theorem fetchWordIsRunByTheNextStep : Obligations.FetchWordIsRunByTheNextStep := by
  intro nbits w i s hi hreset
  obtain rfl := eq_decode_of_decodeTableWord hi
  rw [decode_port]
  refine ⟨fun hport => ?_, fun hport => ?_⟩
  · obtain ⟨hencOnly, -, -⟩ := stepRunsTheAcceptedCommand
    rw [hport]
    exact hencOnly (s.withFetchWord nbits w) _ _ hreset (State.withFetchWord_input hport s) rfl rfl rfl
  · rw [step_of_input (s := s.withFetchWord nbits w) hreset (State.withFetchWord_input hport s) rfl,
      encCycle_quiet rfl, andThen_next, decCycle_runs rfl rfl, hport]
    rfl

end Sys2Proof.Machine
end

section
/-! PROOFS. What a step appends to the output sequence and what its output word carries are the same symbols
(20_memory.md R63; 30_encoding.md R86 to R88). -/

namespace Sys2Proof.Machine

theorem decWord_count_toNat {bs : List Byte} (h : bs.length ≤ 3) (l : Bool) :
    (decWord bs l).count.toNat = bs.length := by
  rw [decWord, BitVec.toNat_ofNat]; omega

/-- An encoder step appends a group or nothing, and its output word carries that, with `last` for an `END`. -/
theorem EncUnit.after_emission (u : EncUnit) {i : Instr} (h : i.port = .enc) :
    ∃ (cs : List Byte) (l : Bool), (u.after i).emitted = u.emitted ++ cs ∧ (u.after i).out = encWord cs l ∧
      (cs = [] ∨ ∃ a n, cs = encGroup a n) ∧ (l = true ↔ ∃ d, i = .encEnd d) := by
  cases i with
  | encByte b =>
    simp only [EncUnit.after]
    split
    next => exact ⟨_, false, rfl, rfl, .inr ⟨_, _, rfl⟩, by simp⟩
    next => exact ⟨[], false, (List.append_nil _).symm, rfl, .inl rfl, by simp⟩
  | encEnd d =>
    refine ⟨_, true, rfl, rfl, ?_, by simp⟩
    split
    next => exact .inl rfl
    next => exact .inr ⟨_, _, rfl⟩
  | decPad | decChar | decEnd => cases h

/-- A received character appends a chunk's bytes or none, and the output word carries that. -/
theorem DecUnit.receive_emission (u : DecUnit) (a : Acc) (n : Nat) (k : Bool) :
    ∃ bs : List Byte, (u.receive a n k).emitted = u.emitted ++ bs ∧
      (u.receive a n k).out = decWord bs false ∧ bs.length ≤ 3 := by
  unfold DecUnit.receive
  split
  next => exact ⟨_, rfl, rfl, decChunk_length_le _ _⟩
  next => exact ⟨[], (List.append_nil _).symm, rfl, Nat.zero_le _⟩

/-- An accepted decoder step appends at most three bytes, and its output word carries them, with `last` for an
`END`. -/
theorem DecUnit.after_emission {u : DecUnit} {i : Instr} (h : i.port = .dec) (hu : u.fault = false) :
    ∃ (bs : List Byte) (l : Bool), (u.after i).emitted = u.emitted ++ bs ∧ (u.after i).out = decWord bs l ∧
      bs.length ≤ 3 ∧ (l = true ↔ ∃ d, i = .decEnd d) := by
  obtain ⟨hf, -⟩ | ⟨-, ⟨d, rfl⟩, heq⟩ | ⟨-, hi, heq⟩ | ⟨-, c, rfl, -, -, heq⟩ | ⟨-, c, rfl, -, -, heq⟩ :=
    u.after_cases h
  · simp [hu] at hf
  · exact ⟨_, true, by rw [heq]; rfl, by rw [heq]; rfl, decChunk_length_le _ _, by simp⟩
  · obtain ⟨bs, hemitted, hout, hlen⟩ := u.receive_emission u.acc u.cnt.toNat true
    refine ⟨bs, false, by rw [heq, hemitted], by rw [heq, hout], hlen, ?_⟩
    obtain rfl | ⟨⟨c, rfl⟩, -⟩ := hi <;> simp
  · obtain ⟨bs, hemitted, hout, hlen⟩ :=
      u.receive_emission (shiftInSextet u.acc (invRom c).idx) (u.cnt.toNat + 1) false
    exact ⟨bs, false, by rw [heq, hemitted], by rw [heq, hout], hlen, by simp⟩
  · exact ⟨[], false, by rw [heq]; exact (List.append_nil _).symm, by rw [heq]; rfl, Nat.zero_le _, by simp⟩

/-- Settles O45: the output word of a step is laid out from the symbols it appends, and lane `j` of such a word
holds symbol `j`. -/
theorem outputWordCarriesTheEmission : Obligations.OutputWordCarriesTheEmission := by
  constructor
  · intro i s t hport h
    obtain rfl := eq_of_exec_eq_next h
    obtain ⟨cs, l, hemitted, hout, hcs, hlast⟩ := s.enc.after_emission hport
    refine ⟨cs, hemitted, ?_⟩
    rw [State.withDec_enc, State.withEnc_enc, hout]
    have hlane : ∀ j < 4, (encWord cs l).data.extractLsb' (24 - 8 * j) 8 = cs.getD j 0 :=
      fun _ => encWord_lane cs l
    obtain rfl | ⟨a, n, rfl⟩ := hcs
    · exact ⟨.inl rfl, by simp, hlane, hlast⟩
    · exact ⟨.inr rfl, ⟨fun _ => rfl, fun _ => rfl⟩, hlane, hlast⟩
  · intro i s t hport hf h
    obtain rfl := eq_of_exec_eq_next h
    obtain ⟨bs, l, hemitted, hout, hlen, hlast⟩ := DecUnit.after_emission hport hf
    refine ⟨bs, hemitted, ?_⟩
    rw [State.withDec_dec, hout]
    exact ⟨decWord_count_toNat hlen l, fun _ => decWord_lane bs l, hlast⟩

end Sys2Proof.Machine
end

section
/-! PROOFS. The encoder (40_encoder.md): its command words, the fields of a group bit by bit (R103, R104), the two
operations (R101, R102, R107) and the shape of what they emit (R106, R108). -/

namespace Sys2Proof

/-! ### The words of `enc_cmd` by their end bit -/

theorem endBit_eq_ofBool_msb (w : CmdWord) : endBit w = BitVec.ofBool w.msb :=
  BitVec.eq_of_getLsbD_eq fun i hi => by
    obtain rfl : i = 0 := by omega
    simp [endBit, BitVec.msb_eq_getLsbD_last]

theorem decode_enc_of_msb_false {w : CmdWord} (h : w.msb = false) :
    decode .enc w = .encByte (w.setWidth 8) := by
  rw [← dataField_eq_setWidth]
  exact decode_enc_of_byteRow (rowSelects_decCharRow_iff.mpr (by rw [endBit_eq_ofBool_msb, h]; rfl))

theorem decode_enc_of_msb_true {w : CmdWord} (h : w.msb = true) :
    decode .enc w = .encEnd (w.setWidth 8) := by
  rw [← dataField_eq_setWidth]
  exact decode_enc_of_endRow (rowSelects_decEndRow_iff.mpr (by rw [endBit_eq_ofBool_msb, h]; rfl))

end Sys2Proof

namespace Sys2Proof.Machine

/-! ### The fields of a group value -/

/-- R89: `field_j` is the six bits from bit `6 * (3 - j)` on. -/
theorem fieldAt_eq_extractLsb' (v : Acc) (j : Nat) : fieldAt v j = v.extractLsb' (6 * (3 - j)) 6 := by
  have hmask : BitVec.setWidth 6 (0x3F : Acc) = BitVec.allOnes 6 := rfl
  rw [fieldAt, BitVec.setWidth_and, hmask, BitVec.and_allOnes, BitVec.setWidth_ushiftRight_eq_extractLsb]

/-- A field that straddles two symbols is the low end of the first followed by the high end of the second. -/
theorem extractLsb'_append_of_straddle {m n s j k : Nat} (x : BitVec m) (y : BitVec n) (h : s + k = n) :
    (x ++ y).extractLsb' s (j + k) = x.extractLsb' 0 j ++ y.extractLsb' s k := by
  rw [← BitVec.extractLsb'_append_extractLsb'_eq_extractLsb' h.symm, BitVec.extractLsb'_append_eq_of_le le_rfl,
    BitVec.extractLsb'_append_eq_of_add_le h.le, Nat.sub_self]

theorem fieldAt_bytes_zero (b0 b1 b2 : Byte) : fieldAt (b0 ++ b1 ++ b2) 0 = b0.extractLsb' 2 6 :=
  calc fieldAt (b0 ++ b1 ++ b2) 0
      = (b0 ++ b1 ++ b2).extractLsb' 18 6 := fieldAt_eq_extractLsb' _ _
    _ = (b0 ++ b1).extractLsb' 10 6 := BitVec.extractLsb'_append_eq_of_le (by decide)
    _ = b0.extractLsb' 2 6 := BitVec.extractLsb'_append_eq_of_le (by decide)

theorem fieldAt_bytes_one (b0 b1 b2 : Byte) :
    fieldAt (b0 ++ b1 ++ b2) 1 = b0.extractLsb' 0 2 ++ b1.extractLsb' 4 4 :=
  calc fieldAt (b0 ++ b1 ++ b2) 1
      = (b0 ++ b1 ++ b2).extractLsb' 12 6 := fieldAt_eq_extractLsb' _ _
    _ = (b0 ++ b1).extractLsb' 4 6 := BitVec.extractLsb'_append_eq_of_le (by decide)
    _ = b0.extractLsb' 0 2 ++ b1.extractLsb' 4 4 := extractLsb'_append_of_straddle (j := 2) (k := 4) b0 b1 rfl

theorem fieldAt_bytes_two (b0 b1 b2 : Byte) :
    fieldAt (b0 ++ b1 ++ b2) 2 = b1.extractLsb' 0 4 ++ b2.extractLsb' 6 2 :=
  calc fieldAt (b0 ++ b1 ++ b2) 2
      = (b0 ++ b1 ++ b2).extractLsb' 6 6 := fieldAt_eq_extractLsb' _ _
    _ = (b0 ++ b1).extractLsb' 0 4 ++ b2.extractLsb' 6 2 :=
      extractLsb'_append_of_straddle (j := 4) (k := 2) (b0 ++ b1) b2 rfl
    _ = b1.extractLsb' 0 4 ++ b2.extractLsb' 6 2 := by
      rw [BitVec.extractLsb'_append_eq_of_add_le (by decide)]

theorem fieldAt_bytes_three (b0 b1 b2 : Byte) : fieldAt (b0 ++ b1 ++ b2) 3 = b2.extractLsb' 0 6 :=
  calc fieldAt (b0 ++ b1 ++ b2) 3
      = (b0 ++ b1 ++ b2).extractLsb' 0 6 := fieldAt_eq_extractLsb' _ _
    _ = b2.extractLsb' 0 6 := BitVec.extractLsb'_append_eq_of_add_le (by decide)

/-- A byte shifted in stands behind the bits held before it; those beyond the 24 are lost. -/
theorem shiftInByte_setWidth {k : Nat} (x : BitVec k) (b : Byte) :
    shiftInByte (x.setWidth 24) b = (x ++ b).setWidth 24 :=
  BitVec.setWidth_append_eq_shiftLeft_setWidth_or.symm

theorem shiftInByte_zero (b : Byte) : shiftInByte 0 b = b.setWidth 24 := by
  simp [shiftInByte]

/-- A group value is left-justified by zero bytes in the place of those it lacks. -/
theorem setWidth_shiftLeft_eq_append_zero {k : Nat} (x : BitVec k) (n : Nat) :
    x.setWidth 24 <<< n = (x ++ 0#n).setWidth 24 := by
  rw [BitVec.setWidth_append_eq_shiftLeft_setWidth_or, BitVec.setWidth_zero, BitVec.or_zero]

theorem justifyBytes_three (a : Acc) : justifyBytes a 3 = a :=
  BitVec.shiftLeft_zero a

theorem justifyBytes_two (b0 b1 : Byte) : justifyBytes ((b0 ++ b1).setWidth 24) 2 = b0 ++ b1 ++ 0#8 :=
  (setWidth_shiftLeft_eq_append_zero (b0 ++ b1) 8).trans (BitVec.setWidth_eq _)

theorem justifyBytes_one (b0 : Byte) : justifyBytes (b0.setWidth 24) 1 = b0 ++ 0#8 ++ 0#8 :=
  calc justifyBytes (b0.setWidth 24) 1
      = (b0 ++ 0#16).setWidth 24 := setWidth_shiftLeft_eq_append_zero b0 16
    _ = b0 ++ 0#16 := BitVec.setWidth_eq _
    _ = b0 ++ 0#8 ++ 0#8 := by rw [BitVec.append_assoc]; rfl

/-! ### The characters of a group -/

theorem groupChar_of_le (v : Acc) {n j : Nat} (h : j ≤ n) : groupChar v n j = alphabet (fieldAt v j) :=
  if_pos h

theorem groupChar_of_lt (v : Acc) {n j : Nat} (h : n < j) : groupChar v n j = padChar :=
  if_neg (Nat.not_le.mpr h)

/-- A character of a group is `=` exactly in the slots past its number of bytes. -/
theorem groupChar_eq_padChar_iff {v : Acc} {n j : Nat} : groupChar v n j = padChar ↔ n < j := by
  refine ⟨fun h => Nat.lt_of_not_le fun hle => ?_, groupChar_of_lt v⟩
  rw [groupChar_of_le v hle] at h
  exact alphabet_ne_padChar _ h

theorem invRom_groupChar_valid (v : Acc) {n j : Nat} (h : j ≤ n) : (invRom (groupChar v n j)).valid = true := by
  rw [groupChar_of_le v h]
  exact invRom_alphabet_valid _

/-- The group of three bytes has no padding. -/
theorem encGroup_three (v : Acc) :
    encGroup v 3 = [alphabet (fieldAt v 0), alphabet (fieldAt v 1), alphabet (fieldAt v 2),
      alphabet (fieldAt v 3)] := by
  rw [encGroup_eq, justifyBytes_three]
  rfl

theorem encGroup_two (a : Acc) :
    encGroup a 2 = [alphabet (fieldAt (justifyBytes a 2) 0), alphabet (fieldAt (justifyBytes a 2) 1),
      alphabet (fieldAt (justifyBytes a 2) 2), 0x3D] := rfl

theorem encGroup_one (a : Acc) :
    encGroup a 1 = [alphabet (fieldAt (justifyBytes a 1) 0), alphabet (fieldAt (justifyBytes a 1) 1),
      0x3D, 0x3D] := rfl

/-- Settles O5: a short group is left-justified by zero bytes, and each field of three bytes is cut from one of
them or straddles two. -/
theorem encGroupByBytes : Obligations.EncGroupByBytes := by
  refine ⟨fun b0 b1 b2 => ?_, fun b0 b1 => ⟨?_, ?_⟩, fun b0 => ⟨?_, ?_, ?_⟩⟩
  · rw [encGroup_three, fieldAt_bytes_zero, fieldAt_bytes_one, fieldAt_bytes_two, fieldAt_bytes_three]
  · rw [encGroup_two, justifyBytes_two, fieldAt_bytes_zero, fieldAt_bytes_one, fieldAt_bytes_two]
    rfl
  · rw [justifyBytes_two, fieldAt_bytes_three]
    rfl
  · rw [encGroup_one, justifyBytes_one, fieldAt_bytes_zero, fieldAt_bytes_one]
    rfl
  · rw [justifyBytes_one, fieldAt_bytes_two]
    rfl
  · rw [justifyBytes_one, fieldAt_bytes_three]
    rfl

/-! ### The step of the encoder -/

/-- A step of the encoder replaces the encoder unit and nothing else. -/
theorem exec_of_enc {i : Instr} (h : i.port = .enc) (s : State) :
    exec i s = .next (s.withEnc (s.enc.after i)) := by
  rw [exec_eq, DecUnit.after_of_enc _ h]
  rfl

/-- The third byte of a group closes it. -/
theorem EncUnit.after_encByte_of_third {u : EncUnit} (h : u.cnt = 2) (b : Byte) :
    u.after (.encByte b) = u.close (encGroup (shiftInByte u.acc b) 3) false :=
  if_pos (by rw [h]; rfl)

theorem EncUnit.after_encByte_of_ne {u : EncUnit} (h : u.cnt ≠ 2) (b : Byte) :
    u.after (.encByte b) = u.hold (shiftInByte u.acc b) (u.cnt.toNat + 1) :=
  if_neg (by rw [Config.encGroup_eq]; bv_omega)

/-- The first and the second byte leave the group open with one more. -/
theorem EncUnit.after_encByte_of_lt {u : EncUnit} (h : u.cnt.toNat < 2) (b : Byte) :
    u.after (.encByte b) =
      { acc := shiftInByte u.acc b, cnt := u.cnt + 1, out := EncOut.idle, emitted := u.emitted } := by
  have hcnt : encCntFor (shiftInByte u.acc b) (u.cnt.toNat + 1) = u.cnt + 1 := by
    rw [encCntFor_of_lt _ (by omega)]
    bv_omega
  rw [after_encByte_of_ne (by bv_omega), EncUnit.hold, hcnt]

/-- `ENC.END` with no open group. -/
theorem EncUnit.after_encEnd_of_empty {u : EncUnit} (h : u.cnt = 0) (d : Byte) :
    u.after (.encEnd d) = u.close [] true := by
  rw [EncUnit.after, if_pos h]

/-- `ENC.END` closes the open group. -/
theorem EncUnit.after_encEnd_of_open {u : EncUnit} (h : u.cnt ≠ 0) (d : Byte) :
    u.after (.encEnd d) = u.close (encGroup u.acc u.cnt.toNat) true := by
  rw [EncUnit.after, if_neg h]

/-- Under R23 no bit of the accumulator is shifted out. -/
theorem EncInv.shiftInByte_toNat {u : EncUnit} (h : EncInv u) (b : Byte) :
    (shiftInByte u.acc b).toNat = u.acc.toNat * 2 ^ 8 + b.toNat := by
  obtain ⟨hcnt, hacc⟩ := h
  have hheld : u.acc.toNat < 2 ^ 16 := hacc.trans_le (Nat.pow_le_pow_right (by decide) (by omega))
  rw [shiftInByte_eq_ofNat, BitVec.toNat_ofNat]
  omega

/-- Settles O11: `ENC.BYTE` closes the group at `ENC.CNT` = 2 and holds it below. -/
theorem encByteResult : Obligations.EncByteResult := by
  refine ⟨fun _ => decode_enc_of_msb_false, fun b s hcnt => ?_, fun b s hinv => hinv.shiftInByte_toNat b,
    fun s ⟨hacc, hcnt⟩ => ⟨_, exec_of_enc rfl s, ?_⟩, fun s hacc hcnt => ⟨_, exec_of_enc rfl s, ?_⟩⟩
  · rw [exec_of_enc rfl]
    split
    next hthird => rw [EncUnit.after_encByte_of_third (by bv_omega)]; rfl
    next hopen => rw [EncUnit.after_encByte_of_lt (by omega)]; rfl
  · rw [State.withEnc_enc, EncUnit.after_encByte_of_lt (by rw [hcnt]; decide), hacc, hcnt]
    exact ⟨rfl, rfl⟩
  · have hgroup : encGroup (shiftInByte 0x004D61 0x6E) 3 = [0x54, 0x57, 0x46, 0x75] := by decide
    rw [State.withEnc_enc, EncUnit.after_encByte_of_third hcnt, hacc, hgroup]
    exact ⟨⟨rfl, rfl⟩, rfl⟩

/-- Settles O12: `ENC.END` closes the open group, or emits nothing where there is none. -/
theorem encEndResult : Obligations.EncEndResult := by
  refine ⟨fun _ => decode_enc_of_msb_true, fun d s => ?_, fun d s hacc hcnt => ⟨_, exec_of_enc rfl s, ?_⟩⟩
  · rw [exec_of_enc rfl]
    split
    next hempty =>
      rw [EncUnit.after_encEnd_of_empty hempty, EncUnit.close, List.append_nil]
      rfl
    next hopen => rw [EncUnit.after_encEnd_of_open hopen]; rfl
  · have hgroup : encGroup 0x00004D 1 = [0x54, 0x51, 0x3D, 0x3D] := by decide
    rw [State.withEnc_enc, EncUnit.after_encEnd_of_open (by rw [hcnt]; decide), hacc, hcnt]
    exact ⟨⟨rfl, rfl⟩, congrArg (s.enc.emitted ++ ·) hgroup⟩

/-- Settles O13: each row is the branch of the operation at its count, with the bytes held as one word. -/
theorem encoderTransitionTable : Obligations.EncoderTransitionTable := by
  refine ⟨fun b s hcnt hacc => ⟨_, exec_of_enc rfl s, ?_⟩, fun b x s hcnt hacc => ⟨_, exec_of_enc rfl s, ?_⟩,
    fun b x s hcnt hacc => ⟨_, exec_of_enc rfl s, ?_⟩, fun d s hcnt hacc => ⟨_, exec_of_enc rfl s, ?_⟩,
    fun d s hcnt => ?_, fun d s hcnt => ?_⟩
  · rw [State.withEnc_enc, EncUnit.after_encByte_of_lt (by rw [hcnt]; decide), hacc, hcnt, shiftInByte_zero]
    exact ⟨rfl, rfl, rfl⟩
  · rw [State.withEnc_enc, EncUnit.after_encByte_of_lt (by rw [hcnt]; decide), hacc, hcnt,
      shiftInByte_setWidth]
    exact ⟨rfl, rfl, rfl⟩
  · have hgroup : shiftInByte (x.setWidth 24) b = x ++ b :=
      (shiftInByte_setWidth x b).trans (BitVec.setWidth_eq _)
    rw [State.withEnc_enc, EncUnit.after_encByte_of_third hcnt, hacc, hgroup]
    exact ⟨⟨rfl, rfl⟩, rfl, encGroup_length _ _⟩
  · rw [State.withEnc_enc, EncUnit.after_encEnd_of_empty hcnt]
    exact ⟨⟨rfl, rfl⟩, List.append_nil _, rfl⟩
  · have hclose : s.enc.after (.encEnd d) = s.enc.close (encGroup s.enc.acc 1) true := by
      rw [EncUnit.after_encEnd_of_open (by rw [hcnt]; decide), hcnt]
      rfl
    exact ⟨_, _, _, by rw [exec_of_enc rfl, hclose], ⟨rfl, rfl⟩, rfl, encGroup_one _, rfl⟩
  · have hclose : s.enc.after (.encEnd d) = s.enc.close (encGroup s.enc.acc 2) true := by
      rw [EncUnit.after_encEnd_of_open (by rw [hcnt]; decide), hcnt]
      rfl
    exact ⟨_, _, _, _, by rw [exec_of_enc rfl, hclose], ⟨rfl, rfl⟩, rfl, encGroup_two _, rfl⟩

/-- Settles O14. -/
theorem encoderIsTotal : Obligations.EncoderIsTotal :=
  ⟨fun _ s => ⟨_, exec_eq _ s⟩, fun p hrst => by rw [encCmdReady, hrst]; rfl⟩

/-! ### The shape of an emission -/

/-- An encoder step emits nothing, or a group of 3 bytes, or under `ENC.END` a group of at least 1. -/
theorem EncUnit.after_emits_group (u : EncUnit) {i : Instr} (h : i.port = .enc) :
    (u.after i).emitted = u.emitted ∨
    ∃ a n, (u.after i).emitted = u.emitted ++ encGroup a n ∧ 1 ≤ n ∧ (n < 3 → ∃ d, i = .encEnd d) := by
  cases i with
  | encByte b =>
    by_cases hcnt : u.cnt = 2
    · exact .inr ⟨_, 3, by rw [after_encByte_of_third hcnt]; rfl, by decide, by simp⟩
    · exact .inl (by rw [after_encByte_of_ne hcnt]; rfl)
  | encEnd d =>
    by_cases hcnt : u.cnt = 0
    · exact .inl (by rw [after_encEnd_of_empty hcnt]; exact List.append_nil _)
    · exact .inr ⟨_, _, by rw [after_encEnd_of_open hcnt]; rfl, by bv_omega, fun _ => ⟨d, rfl⟩⟩
  | decPad | decChar | decEnd => cases h

/-- Settles O15: the `=` of a group stand in the slots past its number of bytes. -/
theorem encoderEmissionShape : Obligations.EncoderEmissionShape := by
  intro i s t hport h
  obtain rfl := eq_of_exec_eq_next h
  refine (s.enc.after_emits_group hport).imp_right ?_
  rintro ⟨a, n, hemitted, hn, hshort⟩
  refine ⟨_, _, _, _, hemitted, invRom_groupChar_valid _ (Nat.zero_le n), invRom_groupChar_valid _ hn,
    isTextChar_groupChar _ _ _, isTextChar_groupChar _ _ _, fun hpad => hshort ?_, fun hpad => ?_⟩
  · obtain hpad | hpad := hpad
    · exact (groupChar_eq_padChar_iff.mp hpad).trans (by decide)
    · exact groupChar_eq_padChar_iff.mp hpad
  · exact groupChar_of_lt _ ((groupChar_eq_padChar_iff.mp hpad).trans (by decide))

end Sys2Proof.Machine
end

section
/-! PROOFS. Progress: every instruction and every cycle after reset has a next state (R84, R106, R173, R193), and
what an instruction does on counter values that no rule stores (log entry 7). -/

namespace Sys2Proof.Machine

/-! ### Every cycle has a next state -/

/-- A step of the decoder replaces the decoder unit and nothing else. -/
theorem exec_of_dec {i : Instr} (h : i.port = .dec) (s : State) :
    exec i s = .next (s.withDec (s.dec.after i)) := by
  rw [exec_eq, EncUnit.after_of_dec _ h]
  rfl

/-- The encoder's part of a cycle replaces the encoder unit and nothing else. -/
theorem exists_encCycle_eq (p : PinsIn) (s : State) : ∃ u, encCycle p s = .next (s.withEnc u) := by
  unfold encCycle
  split
  next => exact ⟨_, exec_of_enc (decode_port _ _) s⟩
  next => exact ⟨_, rfl⟩

/-- The decoder's part of a cycle replaces the decoder unit and nothing else. -/
theorem exists_decCycle_eq (p : PinsIn) (s : State) : ∃ u, decCycle p s = .next (s.withDec u) := by
  unfold decCycle
  split
  next => exact ⟨_, exec_of_dec (decode_port _ _) s⟩
  next => exact ⟨_, rfl⟩

theorem step_in_reset {s : State} (hrst : (nextPins s).rst = true) : step s = .next (applyReset (takePins s)) :=
  if_pos hrst

/-- Settles O34: an instruction has a next state by `exec_eq`; a cycle is a reset, or the part of each unit. -/
theorem everyCycleHasANextState : Obligations.EveryCycleHasANextState := by
  refine ⟨fun i s => ⟨_, exec_eq i s⟩, fun s hreset => ?_⟩
  cases hrst : (nextPins s).rst with
  | true => exact ⟨_, step_in_reset hrst, rfl⟩
  | false =>
    obtain ⟨u, hu⟩ := exists_encCycle_eq (nextPins s) (takePins s)
    obtain ⟨v, hv⟩ := exists_decCycle_eq (nextPins s) ((takePins s).withEnc u)
    refine ⟨((takePins s).withEnc u).withDec v, ?_, hreset⟩
    rw [step_outside_reset hreset hrst, hu, andThen_next, hv]

/-! ### Counter values that no rule stores -/

theorem DecUnit.after_decChar_symbol {u : DecUnit} {c : Byte} (hf : u.fault = false) (hs : u.skip = false)
    (hv : (invRom c).valid = true) :
    u.after (.decChar c) = u.receive (shiftInSextet u.acc (invRom c).idx) (u.cnt.toNat + 1) false := by
  simp [DecUnit.after, hf, hs, hv]

theorem DecUnit.after_decChar_skipped {u : DecUnit} (hf : u.fault = false) (hs : u.skip = true) (c : Byte) :
    u.after (.decChar c) = u.receive u.acc u.cnt.toNat true := by
  simp [DecUnit.after, hf, hs]

/-- A consumed symbol, field by field. -/
theorem DecUnit.receive_consumed {u : DecUnit} (hs : u.skip = false) (a : Acc) (n : Nat) :
    u.receive a n false =
      if u.pos = 3 then
        { u with
          acc := 0, cnt := 0, pos := 0, skip := false, out := decWord (decChunk a n) false,
          emitted := u.emitted ++ decChunk a n }
      else
        { u with
          acc := a, cnt := decCntFor a u.pos n, pos := u.pos + 1,
          out := { count := 0, last := false, data := 0 } } := by
  have hskip : u.withSkip false = u := by rw [DecUnit.withSkip, ← hs]
  unfold DecUnit.receive
  split
  next => rfl
  next => rw [DecUnit.advance, hskip]; rfl

/-- An ignored character, field by field. -/
theorem DecUnit.receive_ignored (u : DecUnit) :
    u.receive u.acc u.cnt.toNat true =
      if u.pos = 3 then
        { u with
          acc := 0, cnt := 0, pos := 0, skip := false, out := decWord (decChunk u.acc u.cnt.toNat) false,
          emitted := u.emitted ++ decChunk u.acc u.cnt.toNat }
      else
        { u with skip := true, pos := u.pos + 1, out := { count := 0, last := false, data := 0 } } := by
  unfold DecUnit.receive
  split
  next => rfl
  next => rw [DecUnit.advance, decCntFor_toNat]; rfl

/-- Settles O41: the operations run on every count; the open values are the count that `encCntFor` or `decCntFor`
gives and the bytes of `decChunk`, never more than three. -/
theorem countersPastTheirRangeStillRun : Obligations.CountersPastTheirRangeStillRun := by
  refine ⟨fun b s hcnt => ?_, fun c s hf hs hv _ => ?_, fun i s hi hf _ => ?_, fun d s hf _ => ?_⟩
  · refine ⟨encCntFor (shiftInByte s.enc.acc b) (s.enc.cnt.toNat + 1), ?_⟩
    rw [exec_of_enc rfl, EncUnit.after_encByte_of_ne (by rw [hcnt]; decide)]
    rfl
  · refine ⟨decChunk (shiftInSextet s.dec.acc (invRom c).idx) (s.dec.cnt.toNat + 1),
      decCntFor (shiftInSextet s.dec.acc (invRom c).idx) s.dec.pos (s.dec.cnt.toNat + 1),
      decChunk_length_le _ _, fun hlt => ?_, ?_⟩
    · rw [decCntFor_of_lt _ _ (by omega)]
      bv_omega
    · rw [exec_of_dec rfl, DecUnit.after_decChar_symbol hf hs hv, DecUnit.receive_consumed hs]
      rfl
  · have hafter : exec i s = .next (s.withDec (s.dec.receive s.dec.acc s.dec.cnt.toNat true)) := by
      obtain rfl | ⟨⟨c, rfl⟩, hs⟩ := hi
      · rw [exec_of_dec rfl, DecUnit.after_decPad hf]
      · rw [exec_of_dec rfl, DecUnit.after_decChar_skipped hf hs]
    exact ⟨_, decChunk_length_le _ _, by rw [hafter, DecUnit.receive_ignored]; rfl⟩
  · exact ⟨_, decChunk_length_le _ _, by rw [exec_of_dec rfl, DecUnit.after_decEnd hf]; rfl⟩

end Sys2Proof.Machine
end

section
/-! PROOFS. The decoder (41_decoder.md): the bytes of a chunk bit by bit (R127, R128), the symbol, skipped and
invalid cases of `DEC.CHAR` (R122 to R124), `DEC.PAD` and `DEC.END` (R125, R126), and the halt on a fault
(R133). -/

namespace Sys2Proof

theorem decode_dec_of_msb_true {w : CmdWord} (h : w.msb = true) :
    decode .dec w = .decEnd (w.setWidth 8) := by
  rw [← dataField_eq_setWidth]
  exact decode_dec_of_endRow (rowSelects_decEndRow_iff.mpr (by rw [endBit_eq_ofBool_msb, h]; rfl))

end Sys2Proof

namespace Sys2Proof.Machine

/-! ### The bytes of a chunk value -/

/-- R89: byte `j` is the eight bits from bit `8 * (2 - j)` on. -/
theorem byteAt_eq_extractLsb' (v : Acc) (j : Nat) : byteAt v j = v.extractLsb' (8 * (2 - j)) 8 := by
  have hmask : BitVec.setWidth 8 (0xFF : Acc) = BitVec.allOnes 8 := rfl
  rw [byteAt, BitVec.setWidth_and, hmask, BitVec.and_allOnes, BitVec.setWidth_ushiftRight_eq_extractLsb]

theorem byteAt_sextets_zero (i0 i1 i2 i3 : Sextet) :
    byteAt (i0 ++ i1 ++ i2 ++ i3) 0 = i0 ++ i1.extractLsb' 4 2 :=
  calc byteAt (i0 ++ i1 ++ i2 ++ i3) 0
      = (i0 ++ i1 ++ i2 ++ i3).extractLsb' 16 8 := byteAt_eq_extractLsb' _ _
    _ = (i0 ++ i1 ++ i2).extractLsb' 10 8 := BitVec.extractLsb'_append_eq_of_le (by decide)
    _ = (i0 ++ i1).extractLsb' 4 8 := BitVec.extractLsb'_append_eq_of_le (by decide)
    _ = i0.extractLsb' 0 6 ++ i1.extractLsb' 4 2 := extractLsb'_append_of_straddle (j := 6) (k := 2) i0 i1 rfl
    _ = i0 ++ i1.extractLsb' 4 2 := by rw [BitVec.extractLsb'_eq_self]

theorem byteAt_sextets_one (i0 i1 i2 i3 : Sextet) :
    byteAt (i0 ++ i1 ++ i2 ++ i3) 1 = i1.extractLsb' 0 4 ++ i2.extractLsb' 2 4 :=
  calc byteAt (i0 ++ i1 ++ i2 ++ i3) 1
      = (i0 ++ i1 ++ i2 ++ i3).extractLsb' 8 8 := byteAt_eq_extractLsb' _ _
    _ = (i0 ++ i1 ++ i2).extractLsb' 2 8 := BitVec.extractLsb'_append_eq_of_le (by decide)
    _ = (i0 ++ i1).extractLsb' 0 4 ++ i2.extractLsb' 2 4 :=
      extractLsb'_append_of_straddle (j := 4) (k := 4) (i0 ++ i1) i2 rfl
    _ = i1.extractLsb' 0 4 ++ i2.extractLsb' 2 4 := by
      rw [BitVec.extractLsb'_append_eq_of_add_le (by decide)]

theorem byteAt_sextets_two (i0 i1 i2 i3 : Sextet) :
    byteAt (i0 ++ i1 ++ i2 ++ i3) 2 = i2.extractLsb' 0 2 ++ i3 :=
  calc byteAt (i0 ++ i1 ++ i2 ++ i3) 2
      = (i0 ++ i1 ++ i2 ++ i3).extractLsb' 0 8 := byteAt_eq_extractLsb' _ _
    _ = (i0 ++ i1 ++ i2).extractLsb' 0 2 ++ i3.extractLsb' 0 6 :=
      extractLsb'_append_of_straddle (j := 2) (k := 6) (i0 ++ i1 ++ i2) i3 rfl
    _ = i2.extractLsb' 0 2 ++ i3 := by
      rw [BitVec.extractLsb'_append_eq_of_add_le (by decide), BitVec.extractLsb'_eq_self]

/-! ### The chunk as its sextets, left-justified -/

theorem justifySextets_four (a : Acc) : justifySextets a 4 = a :=
  BitVec.shiftLeft_zero a

theorem justifySextets_three (i0 i1 i2 : Sextet) :
    justifySextets ((i0 ++ i1 ++ i2).setWidth 24) 3 = i0 ++ i1 ++ i2 ++ 0#6 :=
  (setWidth_shiftLeft_eq_append_zero (i0 ++ i1 ++ i2) 6).trans (BitVec.setWidth_eq _)

theorem justifySextets_two (i0 i1 : Sextet) :
    justifySextets ((i0 ++ i1).setWidth 24) 2 = i0 ++ i1 ++ 0#6 ++ 0#6 :=
  calc justifySextets ((i0 ++ i1).setWidth 24) 2
      = (i0 ++ i1 ++ 0#12).setWidth 24 := setWidth_shiftLeft_eq_append_zero (i0 ++ i1) 12
    _ = i0 ++ i1 ++ 0#12 := BitVec.setWidth_eq _
    _ = i0 ++ i1 ++ 0#6 ++ 0#6 := by rw [BitVec.append_assoc (x₁ := i0 ++ i1)]; rfl

theorem decChunk_two (a : Acc) : decChunk a 2 = [byteAt (justifySextets a 2) 0] := rfl

theorem decChunk_three (a : Acc) :
    decChunk a 3 = [byteAt (justifySextets a 3) 0, byteAt (justifySextets a 3) 1] := rfl

/-- The chunk of four sextets fills three bytes. -/
theorem decChunk_four (v : Acc) : decChunk v 4 = [byteAt v 0, byteAt v 1, byteAt v 2] :=
  calc decChunk v 4
      = [byteAt (justifySextets v 4) 0, byteAt (justifySextets v 4) 1, byteAt (justifySextets v 4) 2] := rfl
    _ = [byteAt v 0, byteAt v 1, byteAt v 2] := by rw [justifySextets_four]

/-- Settles O6: a short chunk is left-justified by zero sextets, and each byte of four sextets straddles two of
them. -/
theorem decChunkBySextets : Obligations.DecChunkBySextets := by
  refine ⟨fun a => ⟨decChunk_of_le_one a (by decide), decChunk_of_le_one a le_rfl⟩, fun i0 i1 => ?_,
    fun i0 i1 i2 => ?_, fun i0 i1 i2 i3 => ?_⟩
  · rw [decChunk_two, justifySextets_two, byteAt_sextets_zero]
  · rw [decChunk_three, justifySextets_three, byteAt_sextets_zero, byteAt_sextets_one]
  · rw [decChunk_four, byteAt_sextets_zero, byteAt_sextets_one, byteAt_sextets_two]

/-! ### What a received character does -/

/-- The character received at `DEC.POS` = 3 closes the chunk. -/
theorem DecUnit.receive_of_last {u : DecUnit} (h : u.pos = 3) (a : Acc) (n : Nat) (k : Bool) :
    u.receive a n k = u.close (decChunk a n) false :=
  if_pos h

/-- A character received earlier leaves the chunk open. -/
theorem DecUnit.receive_of_ne {u : DecUnit} (h : u.pos ≠ 3) (a : Acc) (n : Nat) (k : Bool) :
    u.receive a n k = u.advance a n k :=
  if_neg h

/-- An ignored character with `DEC.SKIP` = 1 already, field by field. -/
theorem DecUnit.receive_skipped {u : DecUnit} (hs : u.skip = true) :
    u.receive u.acc u.cnt.toNat true =
      if u.pos = 3 then
        { u with
          acc := 0, cnt := 0, pos := 0, skip := false, out := decWord (decChunk u.acc u.cnt.toNat) false,
          emitted := u.emitted ++ decChunk u.acc u.cnt.toNat }
      else
        { u with pos := u.pos + 1, out := { count := 0, last := false, data := 0 } } := by
  rw [DecUnit.receive_ignored, ← hs]

theorem decCntFor_succ (a : Acc) (pos : BitVec 2) {c : BitVec 3} (h : c.toNat < 7) :
    decCntFor a pos (c.toNat + 1) = c + 1 := by
  rw [decCntFor_of_lt _ _ (by omega)]
  bv_omega

/-- The output word counts the bytes of the closed chunk. -/
theorem DecUnit.close_count {u : DecUnit} {n : Nat} (h : n ≤ 4) (a : Acc) (l : Bool) :
    (u.close (decChunk a n) l).out.count.toNat = n - 1 := by
  rw [DecUnit.close_out, decWord_count_toNat (decChunk_length_le a n), decChunk_length a h]

/-! ### The operations -/

theorem DecUnit.after_decChar_invalid {u : DecUnit} {c : Byte} (hf : u.fault = false) (hs : u.skip = false)
    (hv : (invRom c).valid = false) : u.after (.decChar c) = u.quiet.recordFault .invalidCharacter c := by
  simp [DecUnit.after, hf, hs, hv]

/-- Under R36 an open chunk holds at most three sextets, so one more shifts none of their bits out. -/
theorem DecInv.shiftInSextet_toNat {u : DecUnit} (h : DecInv u) (i : Sextet) :
    (shiftInSextet u.acc i).toNat = u.acc.toNat * 2 ^ 6 + i.toNat := by
  obtain ⟨hcnt, hacc, -⟩ := h
  have hheld : u.acc.toNat < 2 ^ 18 := hacc.trans_le (Nat.pow_le_pow_right (by decide) (by omega))
  rw [shiftInSextet_eq_ofNat, BitVec.toNat_ofNat]
  omega

/-- Settles O18: the symbol is received; at `DEC.POS` = 3 it is the fourth sextet of the chunk. -/
theorem decCharSymbolCase : Obligations.DecCharSymbolCase := by
  refine ⟨fun c s hf hs hv hcnt => ?_, fun c s hinv hf hs hv => ⟨hinv.shiftInSextet_toNat _, fun hpos => ?_⟩,
    fun s ⟨hacc, hcnt, hpos, hs, hf, _⟩ => ⟨_, exec_of_dec rfl s, ?_⟩,
    fun s hacc hcnt hpos hs hf => ⟨_, exec_of_dec rfl s, ?_⟩⟩
  · rw [exec_of_dec rfl, DecUnit.after_decChar_symbol hf hs hv, DecUnit.receive_consumed hs,
      decCntFor_succ _ _ (by omega)]
    rfl
  · have hcnt : s.dec.cnt.toNat = 3 := by
      obtain ⟨-, -, hall, -⟩ := hinv
      rw [hall hs, hpos]
      rfl
    rw [exec_of_dec rfl, DecUnit.after_decChar_symbol hf hs hv, DecUnit.receive_of_last hpos, hcnt,
      decChunk_four]
    exact ⟨_, _, _, _, rfl, rfl, rfl⟩
  · have hentry : invRom 0x41 = { valid := true, idx := 0 } := by decide
    rw [State.withDec_dec, DecUnit.after_decChar_symbol hf hs (by rw [hentry]),
      DecUnit.receive_of_ne (by rw [hpos]; decide), hentry, hacc, hcnt]
    exact ⟨rfl, rfl⟩
  · have hchunk : decChunk (shiftInSextet 0x013585 (invRom 0x75).idx) 4 = [0x4D, 0x61, 0x6E] := by decide
    rw [State.withDec_dec, DecUnit.after_decChar_symbol hf hs (by decide), DecUnit.receive_of_last hpos, hacc,
      hcnt]
    exact ⟨congrArg (s.dec.emitted ++ ·) hchunk, rfl, rfl, rfl, rfl⟩

/-- Settles O19: the character is received without being looked up; under R36 at most two were consumed before
the `=` of this chunk. -/
theorem decCharSkippedCase : Obligations.DecCharSkippedCase := by
  refine ⟨fun c s hf hs _ => ?_, fun c s hinv hf hs => ⟨_, exec_of_dec rfl s, ?_⟩,
    fun s hacc hcnt hpos hs hf => ⟨_, exec_of_dec rfl s, ?_⟩⟩
  · rw [exec_of_dec rfl, DecUnit.after_decChar_skipped hf hs, DecUnit.receive_skipped hs]
    rfl
  · rw [State.withDec_dec, DecUnit.after_decChar_skipped hf hs]
    by_cases hpos : s.dec.pos = 3
    · obtain ⟨-, -, -, hfew, -⟩ := hinv
      obtain ⟨-, hcnt⟩ := hfew hs
      rw [DecUnit.receive_of_last hpos, DecUnit.close_emitted, List.length_append,
        decChunk_length _ (by omega)]
      omega
    · rw [DecUnit.receive_of_ne hpos, DecUnit.advance_emitted]
      exact Nat.le_succ _
  · have hchunk : decChunk 0x0004D0 2 = [0x4D] := by decide
    rw [State.withDec_dec, DecUnit.after_decChar_skipped hf hs, DecUnit.receive_of_last hpos, hacc, hcnt]
    exact ⟨congrArg (s.dec.emitted ++ ·) hchunk, rfl, rfl, rfl, rfl⟩

/-- The codes that fault are the invalid ones but `=`, whose command is `DEC.PAD` (R92). -/
theorem count_invRom_invalid_ne_padChar :
    ((List.range 256).filter fun n =>
      !(invRom (BitVec.ofNat 8 n)).valid && BitVec.ofNat 8 n != padChar).length = 191 := by
  have hmem : 0x3D ∈ (List.range 256).filter fun n => !(invRom (BitVec.ofNat 8 n)).valid := by
    rw [List.mem_filter]
    decide
  have herase : ((List.range 256).filter fun n =>
      !(invRom (BitVec.ofNat 8 n)).valid && BitVec.ofNat 8 n != padChar) =
      ((List.range 256).filter fun n => !(invRom (BitVec.ofNat 8 n)).valid).erase 0x3D := by
    rw [(List.nodup_range.filter _).erase_eq_filter, List.filter_filter]
    refine List.filter_congr fun n hn => ?_
    have hpad : (BitVec.ofNat 8 n = padChar) ↔ n = 0x3D := by
      rw [← BitVec.toNat_inj, BitVec.toNat_ofNat, Nat.mod_eq_of_lt (List.mem_range.mp hn)]
      rfl
    rw [Bool.and_comm, bne, bne, Bool.beq_eq_decide_eq, Bool.beq_eq_decide_eq, decide_eq_decide.mpr hpad]
  rw [herase, List.length_erase_of_mem hmem, count_invRom_invalid]

/-- A faulted decoder's port is not ready (R91, R133). -/
theorem decCmdReady_of_fault {s : State} (h : s.dec.fault = true) (p : PinsIn) : decCmdReady p s = false := by
  rw [decCmdReady, h]
  exact Bool.and_false _

/-- Settles O20: the step records the fault in a quiet decoder, and the pins are the registers. -/
theorem decCharInvalidCase : Obligations.DecCharInvalidCase := by
  refine ⟨fun c s hf hs hv => ⟨_, ?_, rfl, fun p u => ⟨rfl, rfl, rfl, decCmdReady_of_fault rfl p⟩⟩,
    count_invRom_invalid_ne_padChar⟩
  rw [exec_of_dec rfl, DecUnit.after_decChar_invalid hf hs hv]
  rfl

/-- Settles O21: `=` is received as an ignored character. -/
theorem decPadResult : Obligations.DecPadResult := by
  refine ⟨fun w hw => decode_dec_of_padRow (rowSelects_decPadRow_iff.mpr hw), fun s hf _ => ?_,
    fun s hinv hf => ⟨_, exec_of_dec rfl s, ?_⟩,
    fun s hacc hcnt hpos hs hf => ⟨_, exec_of_dec rfl s, ?_⟩⟩
  · rw [exec_of_dec rfl, DecUnit.after_decPad hf, DecUnit.receive_ignored]
    rfl
  · obtain ⟨hcnt, -⟩ := hinv
    rw [State.withDec_dec, DecUnit.after_decPad hf]
    split
    next hpos =>
      rw [DecUnit.receive_of_last hpos]
      exact ⟨DecUnit.close_count (by omega) _ _, rfl⟩
    next hpos =>
      rw [DecUnit.receive_of_ne hpos]
      exact ⟨rfl, rfl⟩
  · have hchunk : decChunk 0x013584 3 = [0x4D, 0x61] := by decide
    rw [State.withDec_dec, DecUnit.after_decPad hf, DecUnit.receive_of_last hpos, hacc, hcnt]
    exact ⟨congrArg (s.dec.emitted ++ ·) hchunk, rfl, rfl, rfl, rfl⟩

/-- Settles O22: `DEC.END` closes the chunk wherever it stands. -/
theorem decEndResult : Obligations.DecEndResult := by
  refine ⟨fun _ => decode_dec_of_msb_true, fun d s hf _ => ?_, fun d s hinv hf => ⟨_, exec_of_dec rfl s, ?_⟩,
    fun d s hacc hcnt hpos hs hf => ⟨_, exec_of_dec rfl s, ?_⟩⟩
  · rw [exec_of_dec rfl, DecUnit.after_decEnd hf]
    rfl
  · obtain ⟨hcnt, -, -, -, hclear, -⟩ := hinv
    rw [State.withDec_dec, DecUnit.after_decEnd hf]
    exact ⟨⟨rfl, rfl, rfl, rfl, hf, hclear hf⟩, DecUnit.close_count (by omega) _ _, rfl⟩
  · have hchunk : decChunk 0x0004D0 2 = [0x4D] := by decide
    rw [State.withDec_dec, DecUnit.after_decEnd hf, hacc, hcnt]
    exact ⟨congrArg (s.dec.emitted ++ ·) hchunk, rfl, rfl, rfl, rfl⟩

/-! ### The halt -/

/-- Settles O28: a faulted decoder's port is not ready, so each cycle outside reset is a quiet one (O39). -/
theorem decoderHaltedWhileFaulted : Obligations.DecoderHaltedWhileFaulted := by
  refine ⟨fun i s hport hf => exec_of_fault hport hf, fun p s hf => decCmdReady_of_fault hf p,
    fun s t hreset hf hrst h => ?_⟩
  obtain ⟨-, hdecQuiet⟩ := unitWithoutACommandKeepsItsState
  exact hdecQuiet s t hreset hrst (.inr (decCmdReady_of_fault hf _)) h

end Sys2Proof.Machine
end

section
/-! PROOFS. Pieces of a symbol list and the closed form of `encode` (42_payload_functions.md R150, R151): a payload is
cut into groups of three, a text into chunks of four, and what holds of a list is proved piece by piece. -/

namespace Sys2Proof.Machine

/-! ### Pieces of a list -/

/-- The pieces of `k` elements of `l` in order, the last one of fewer where `k` does not divide the length
(R64, R65). -/
def pieces {α : Type} (k : Nat) (l : List α) : List (List α) :=
  (List.range ((l.length + (k - 1)) / k)).map fun j => (l.drop (k * j)).take k

theorem pieces_length {α : Type} (k : Nat) (l : List α) :
    (pieces k l).length = (l.length + (k - 1)) / k := by
  rw [pieces, List.length_map, List.length_range]

theorem pieces_append {α : Type} {k : Nat} (hk : 0 < k) {g : List α} (hg : g.length = k) (l : List α) :
    pieces k (g ++ l) = g :: pieces k l := by
  have hcount : ((g ++ l).length + (k - 1)) / k = (l.length + (k - 1)) / k + 1 := by
    rw [List.length_append, hg, Nat.add_assoc, Nat.add_comm, Nat.add_div_right _ hk]
  have hfirst : ((g ++ l).drop (k * 0)).take k = g := List.take_left' hg
  have hrest (j : Nat) : ((g ++ l).drop (k * (j + 1))).take k = (l.drop (k * j)).take k := by
    rw [Nat.mul_succ, Nat.add_comm, ← List.drop_drop, List.drop_left' hg]
  rw [pieces, hcount, List.range_succ_eq_map, List.map_cons, hfirst, List.map_map]
  exact congrArg (g :: ·) (List.map_congr_left fun j _ => hrest j)

theorem pieces_of_short {α : Type} {k : Nat} {l : List α} (hpos : l ≠ []) (hl : l.length ≤ k) :
    pieces k l = [l] := by
  have hlen := List.length_pos_iff.mpr hpos
  have hcount : (l.length + (k - 1)) / k = 1 := Nat.div_eq_of_lt_le (by omega) (by omega)
  rw [pieces, hcount]
  exact congrArg (fun g => [g]) (List.take_of_length_le hl)

/-- What holds of every list shorter than `k`, and is kept by a piece of `k` before a list, holds of every
list. -/
theorem pieces_induction {α : Type} {k : Nat} (hk : 0 < k) {P : List α → Prop}
    (short : ∀ l, l.length < k → P l) (whole : ∀ g l, g.length = k → P l → P (g ++ l)) (l : List α) : P l := by
  induction hn : l.length using Nat.strong_induction_on generalizing l with
  | _ n ih =>
    by_cases hlt : l.length < k
    · exact short l hlt
    · rw [← List.take_append_drop k l]
      exact whole _ _ (by rw [List.length_take]; omega)
        (ih (l.drop k).length (by rw [List.length_drop]; omega) _ rfl)

/-! ### The closed form of `encode` -/

/-- The characters of a group of bytes (R151). -/
def groupText (g : List Byte) : List Byte :=
  encGroup (concatBytes g) g.length

@[simp] theorem groupText_length (g : List Byte) : (groupText g).length = 4 :=
  encGroup_length _ _

theorem encodeClosed_eq (p : List Byte) : encodeClosed p = (pieces 3 p).flatMap groupText := by
  rw [pieces, List.flatMap_map]
  rfl

theorem encodeClosed_nil : encodeClosed [] = [] := rfl

theorem encodeClosed_append {g : List Byte} (hg : g.length = 3) (p : List Byte) :
    encodeClosed (g ++ p) = groupText g ++ encodeClosed p := by
  rw [encodeClosed_eq, pieces_append (by decide) hg, List.flatMap_cons, encodeClosed_eq]

theorem encodeClosed_of_short {p : List Byte} (hpos : p ≠ []) (hp : p.length ≤ 3) :
    encodeClosed p = groupText p := by
  rw [encodeClosed_eq, pieces_of_short hpos hp, List.flatMap_singleton]

/-! ### The run of the encoder -/

/-- The concatenation of bytes is the accumulator they are shifted into (R101, R151). -/
theorem concatBytes_eq_foldl (g : List Byte) : concatBytes g = g.foldl shiftInByte 0 := by
  induction g using List.reverseRecOn with
  | nil => rfl
  | append_singleton g b ih => rw [concatBytes_append_singleton, List.foldl_append, ih]; rfl

/-- A payload of one group: its bytes enter the accumulator, and the third byte or END closes it. -/
theorem encodePayload_of_group {g : List Byte} (hpos : g ≠ []) (hg : g.length ≤ 3) :
    encodePayload g = some (groupText g) := by
  rw [encodePayload_eq, groupText, concatBytes_eq_foldl]
  match g with
  | [_] | [_, _] | [_, _, _] => rfl
  | [] => exact absurd rfl hpos
  | _ :: _ :: _ :: _ :: l => exact absurd hg (Nat.not_le.mpr (by simp))

theorem encodePayload_nil : encodePayload [] = some [] := rfl

/-- R151, group by group (R7). -/
theorem encodePayload_eq_encodeClosed (p : List Byte) : encodePayload p = some (encodeClosed p) := by
  induction p using pieces_induction (k := 3) (by decide) with
  | short p hp =>
    by_cases hpos : p = []
    · rw [hpos, encodePayload_nil, encodeClosed_nil]
    · rw [encodePayload_of_group hpos hp.le, encodeClosed_of_short hpos hp.le]
  | whole g p hg ih =>
    have hpos : g ≠ [] := List.ne_nil_of_length_pos (by omega)
    obtain ⟨x, hx, hgp⟩ := encodePayload_append (p := g) (by rw [hg]) ih
    rw [encodePayload_of_group hpos hg.le, Option.some.injEq] at hx
    rw [hgp, ← hx, encodeClosed_append hg]

/-- A run appends `encode(P)` to what the idle encoder has emitted (R162). -/
theorem EncUnit.emitted_of_run {u : EncUnit} (h : EncIdle u) (p : List Byte) :
    ((encodeCommands p).foldl EncUnit.after u).emitted = u.emitted ++ encodeClosed p := by
  have hreset := encodePayload_eq_encodeClosed p
  rw [encodePayload_eq, Option.some.injEq] at hreset
  have hrun := congrArg EncUnit.emitted (EncUnit.foldl_after_of_idle (encodeCommands p) h)
  rw [← hreset]
  exact hrun

/-- END leaves the encoder idle (R102, R150). -/
theorem EncUnit.idle_of_run (u : EncUnit) (p : List Byte) :
    EncIdle ((encodeCommands p).foldl EncUnit.after u) := by
  rw [encodeCommands, List.foldl_append]
  exact ⟨rfl, rfl⟩

theorem encodeCommands_port {p : List Byte} {i : Instr} (h : i ∈ encodeCommands p) : i.port = .enc := by
  rw [encodeCommands, List.mem_append, List.mem_map, List.mem_singleton] at h
  obtain ⟨b, -, rfl⟩ | rfl := h
  · rfl
  · rfl

theorem DecUnit.foldl_after_of_enc {l : List Instr} (h : ∀ i ∈ l, i.port = .enc) (u : DecUnit) :
    l.foldl DecUnit.after u = u := by
  have hnone : l.filter (·.port == .dec) = [] := List.filter_eq_nil_iff.mpr fun i hi => by simp [h i hi]
  rw [← DecUnit.foldl_after_filter, hnone, List.foldl_nil]

/-- Settles O46: a run is the fold of the encoder's step, and none of its commands is the decoder's. -/
theorem encodeRunClosedForm : Obligations.EncodeRunClosedForm := by
  refine ⟨encodePayload_eq_encodeClosed, fun p s h => ⟨_, execAll_eq _ s, ?_, ?_, ?_⟩⟩
  · exact s.enc.idle_of_run p
  · exact DecUnit.foldl_after_of_enc (fun i => encodeCommands_port) s.dec
  · exact EncUnit.emitted_of_run h p

/-! ### Laws of the encoded text -/

/-- Settles O49: each piece is written as four characters. -/
theorem encodedLengthLaw : Obligations.EncodedLengthLaw := by
  intro p
  refine ⟨_, encodePayload_eq_encodeClosed p, ?_⟩
  simp only [encodeClosed_eq, List.length_flatMap, groupText_length, List.map_const', List.sum_replicate,
    pieces_length, smul_eq_mul, Nat.mul_comm]

/-- The number of `=` behind the last group of a payload of `n` bytes (R155). -/
def padCount (n : Nat) : Nat :=
  if n % 3 = 0 then 0 else if n % 3 = 1 then 2 else 1

theorem padChar_not_mem_map_alphabet (l : List Sextet) : padChar ∉ l.map alphabet := by
  rw [List.mem_map]
  rintro ⟨i, -, hi⟩
  exact alphabet_ne_padChar i hi

/-- The fields of a group that are written as codes of the alphabet: one more than it has bytes (R103). -/
def groupSextets (g : List Byte) : List Sextet :=
  (List.range (g.length + 1)).map (fieldAt (justifyBytes (concatBytes g) g.length))

/-- A group of `n` bytes is `n + 1` codes of the alphabet and `3 - n` times `=` (R103). -/
theorem groupText_eq_append {g : List Byte} (hpos : g ≠ []) (hg : g.length ≤ 3) :
    groupText g = (groupSextets g).map alphabet ++ List.replicate (3 - g.length) padChar := by
  have hlen := List.length_pos_iff.mpr hpos
  rw [groupText, groupSextets]
  generalize concatBytes g = a at *
  generalize g.length = n at *
  interval_cases n <;> rfl

/-- Only the last group has padding, by its number of bytes (R155). -/
theorem exists_body_of_encodeClosed (p : List Byte) :
    ∃ body, encodeClosed p = body ++ List.replicate (padCount p.length) padChar ∧ padChar ∉ body := by
  induction p using pieces_induction (k := 3) (by decide) with
  | short p hp =>
    by_cases hpos : p = []
    · exact ⟨[], by rw [hpos]; rfl, by simp⟩
    · have hcount : 3 - p.length = padCount p.length := by
        have hlen := List.length_pos_iff.mpr hpos
        unfold padCount
        split_ifs <;> omega
      exact ⟨(groupSextets p).map alphabet,
        by rw [encodeClosed_of_short hpos hp.le, groupText_eq_append hpos hp.le, hcount],
        padChar_not_mem_map_alphabet _⟩
  | whole g p hg ih =>
    obtain ⟨body, hbody, hpad⟩ := ih
    have htext : groupText g = (groupSextets g).map alphabet := by
      rw [groupText_eq_append (List.ne_nil_of_length_pos (by omega)) hg.le, hg]
      exact List.append_nil _
    have hcount : padCount (g ++ p).length = padCount p.length := by
      rw [padCount, List.length_append, hg, Nat.add_mod_left, padCount]
    refine ⟨(groupSextets g).map alphabet ++ body, ?_, ?_⟩
    · rw [encodeClosed_append hg, hbody, hcount, htext, List.append_assoc]
    · rw [List.mem_append, not_or]
      exact ⟨padChar_not_mem_map_alphabet _, hpad⟩

/-- Settles O50. -/
theorem encodedPaddingLaw : Obligations.EncodedPaddingLaw := by
  intro p
  obtain ⟨body, hbody, hpad⟩ := exists_body_of_encodeClosed p
  exact ⟨body, (encodePayload_eq_encodeClosed p).trans (congrArg some hbody), hpad⟩

theorem isTextChar_of_mem_encodeClosed {p : List Byte} {c : Byte} (h : c ∈ encodeClosed p) : IsTextChar c := by
  rw [encodeClosed_eq, List.mem_flatMap] at h
  obtain ⟨g, -, hc⟩ := h
  exact isTextChar_of_mem_encGroup hc

/-- Settles O51: every character of a group is an alphabet code or `=`. -/
theorem encodedAlphabetClosure : Obligations.EncodedAlphabetClosure := by
  refine fun p => ⟨_, encodePayload_eq_encodeClosed p, fun c hc => ?_⟩
  obtain hvalid | hpad := isTextChar_of_mem_encodeClosed hc
  · have halpha := alphabet_invRom_idx hvalid
    exact ⟨fun _ => ⟨_, halpha⟩, halpha ▸ alphabet_toNat_lt _⟩
  · rw [hpad]
    exact ⟨fun hne => absurd rfl hne, by decide⟩

end Sys2Proof.Machine
end

section
/-! PROOFS. The closed form of `decode` (42_payload_functions.md R152, R153): what a chunk of a text appends or
where it faults, and from it the run of the decoder, interleaved runs and the length of a decode. -/

namespace Sys2Proof.Machine

/-! ### The closed form by chunks -/

/-- The bytes of a chunk `g` whose consumed characters are all valid (R153). -/
def chunkOutput (g : List Byte) : List Byte :=
  decChunk (concatIndices (consumedIn g)) (consumedIn g).length

/-- The first consumed character of a chunk that is not in the alphabet (R153). -/
def invalidIn (g : List Byte) : Option Byte :=
  (consumedIn g).find? fun c => !(invRom c).valid

theorem chunkValid_iff {x : List Byte} {k : Nat} : chunkValid x k = true ↔ invalidIn (chunkOf x k) = none := by
  simp [chunkValid, invalidIn, consumedOf_eq]

theorem firstInvalid_eq (x : List Byte) : firstInvalid x = (pieces 4 x).findSome? invalidIn := by
  rw [firstInvalid, List.find?_flatMap, pieces, List.findSome?_map]
  rfl

theorem decodeEmitted_eq (x : List Byte) :
    decodeEmitted x = ((pieces 4 x).takeWhile fun g => (invalidIn g).isNone).flatMap chunkOutput := by
  have hvalid : chunkValid x = (fun g => (invalidIn g).isNone) ∘ chunkOf x :=
    funext fun k => Bool.eq_iff_iff.mpr (chunkValid_iff.trans Option.isNone_iff_eq_none.symm)
  have hpieces : pieces 4 x = (chunkNumbers x).map (chunkOf x) := rfl
  rw [hpieces, List.takeWhile_map, List.flatMap_map, decodeEmitted, hvalid]
  rfl

theorem firstInvalid_of_short {g : List Byte} (hg : g.length ≤ 4) : firstInvalid g = invalidIn g := by
  by_cases hpos : g = []
  · rw [hpos]; rfl
  · rw [firstInvalid_eq, pieces_of_short hpos hg, List.findSome?_singleton]

theorem firstInvalid_append {g : List Byte} (hg : g.length = 4) (x : List Byte) :
    firstInvalid (g ++ x) = (invalidIn g).or (firstInvalid x) := by
  rw [firstInvalid_eq, pieces_append (by decide) hg, List.findSome?_cons, ← firstInvalid_eq]
  cases invalidIn g <;> rfl

theorem decodeEmitted_of_short {g : List Byte} (hg : g.length ≤ 4) (h : invalidIn g = none) :
    decodeEmitted g = chunkOutput g := by
  by_cases hpos : g = []
  · rw [hpos]; rfl
  · simp [decodeEmitted_eq, pieces_of_short hpos hg, h]

/-- The output stops before the first chunk with an invalid consumed character (R175). -/
theorem decodeEmitted_of_invalid {x g : List Byte} {l : List (List Byte)} (hx : pieces 4 x = g :: l) {c : Byte}
    (h : invalidIn g = some c) : decodeEmitted x = [] := by
  simp [decodeEmitted_eq, hx, h]

theorem decodeEmitted_append {g : List Byte} (hg : g.length = 4) (h : invalidIn g = none) (x : List Byte) :
    decodeEmitted (g ++ x) = chunkOutput g ++ decodeEmitted x := by
  simp [decodeEmitted_eq, pieces_append, hg, h]

theorem decodeClosed_of_invalid {x : List Byte} {c : Byte} (h : firstInvalid x = some c) :
    decodeClosed x = .invalidCharacter c := by
  rw [decodeClosed, h]

theorem decodeEmitted_of_valid {x : List Byte} (h : firstInvalid x = none) :
    decodeEmitted x = (chunkNumbers x).flatMap (chunkBytes x) := by
  have hall : (chunkNumbers x).takeWhile (chunkValid x) = chunkNumbers x :=
    List.takeWhile_eq_self_iff.mpr fun k _ => List.all_eq_true.mpr (firstInvalid_eq_none_iff.mp h k)
  rw [decodeEmitted, hall]

theorem decodeClosed_of_valid {x : List Byte} (h : firstInvalid x = none) :
    decodeClosed x = .bytes (decodeEmitted x) := by
  rw [decodeClosed, h, decodeEmitted_of_valid h]

/-! ### What the commands of a chunk do -/

/-- The fault registers hold the invalid character `c`, or for `none` their reset values (R32 to R34). -/
def DecUnit.ShowsFault (u : DecUnit) : Option Byte → Prop
  | none => u.fault = false ∧ u.fcode = .none ∧ u.fchar = 0
  | some c => u.fault = true ∧ u.fcode = .invalidCharacter ∧ u.fchar = c

theorem DecUnit.after_quiet_of_fault {u : DecUnit} (h : u.fault = true) (i : Instr) :
    (u.after i).quiet = u.quiet := by
  cases i with
  | encByte | encEnd => rfl
  | decPad | decChar | decEnd => simp only [DecUnit.after, h, if_true]; rfl

/-- A faulted decoder keeps its registers and its output sequence (R133). -/
theorem DecUnit.foldl_after_quiet_of_fault {u : DecUnit} (h : u.fault = true) (l : List Instr) :
    (l.foldl DecUnit.after u).quiet = u.quiet := by
  induction l with
  | nil => rfl
  | cons i l ih => exact (DecUnit.foldl_after_quiet l (u.after_quiet_of_fault h i)).trans ih

theorem DecUnit.ShowsFault.foldl_after {u : DecUnit} {c : Byte} (h : u.ShowsFault (some c)) (l : List Instr) :
    (l.foldl DecUnit.after u).ShowsFault (some c) ∧ (l.foldl DecUnit.after u).emitted = u.emitted := by
  obtain ⟨hfault, hfields⟩ := h
  have hquiet := DecUnit.foldl_after_quiet_of_fault hfault l
  have hkeep : (l.foldl DecUnit.after u).quiet.ShowsFault (some c) := hquiet ▸ ⟨hfault, hfields⟩
  exact ⟨hkeep, (congrArg DecUnit.emitted hquiet :)⟩

/-- Characters of which none faults leave the fault registers at their reset values. -/
theorem DecUnit.showsFault_none_of_foldl {u : DecUnit} (h : DecIdle u) {x : List Byte}
    (hx : firstInvalid x = none) : ((x.map charCommand).foldl DecUnit.after u).ShowsFault none := by
  obtain ⟨hfault, -⟩ := DecUnit.holdsChunk_of_foldl h x hx
  obtain ⟨hacc, hcnt, hpos, hskip, hfields⟩ := h
  have hcounts : u.CountsChars 0 := ⟨congrArg BitVec.toNat hpos, fun _ => ⟨hacc, hcnt, hskip⟩, hfields⟩
  obtain ⟨-, -, hkept⟩ := hcounts.foldl_charCommand x hfault
  exact hkept

/-- The fourth character of a chunk closes it and emits its bytes; an earlier one emits nothing. -/
theorem DecUnit.HoldsChunk.emitted_after_charCommand {u : DecUnit} {g : List Byte} (h : u.HoldsChunk g) {c : Byte}
    (hc : c ∈ consumedIn (g ++ [c]) → (invRom c).valid = true) :
    (u.after (charCommand c)).emitted =
      u.emitted ++ if u.pos = 3 then chunkOutput (g ++ [c]) else [] := by
  rw [h.after_charCommand_eq hc]
  split
  next hlast => rw [DecUnit.receive_of_last hlast]; rfl
  next hopen => rw [DecUnit.receive_of_ne hopen]; exact (List.append_nil _).symm

theorem openTail_of_short {α : Type} {k : Nat} {l : List α} (hl : l.length < k) : openTail k l = l := by
  rw [openTail, Nat.div_eq_of_lt hl]
  rfl

/-- What a decoder that was idle has emitted after at most four characters of which none faults. -/
theorem DecUnit.emitted_of_chunk {u : DecUnit} (h : DecIdle u) {g : List Byte} (hg : g.length ≤ 4)
    (hvalid : firstInvalid g = none) :
    ((g.map charCommand).foldl DecUnit.after u).emitted =
      u.emitted ++ if g.length = 4 then chunkOutput g else [] := by
  induction g using List.reverseRecOn with
  | nil => exact (List.append_nil _).symm
  | append_singleton g c ih =>
    rw [List.length_append, List.length_singleton] at hg ⊢
    have hprefix := firstInvalid_eq_none_of_isPrefix (List.prefix_append ..) hvalid
    have hopen : openTail 4 g = g := openTail_of_short hg
    have hheld := DecUnit.holdsChunk_of_foldl h g hprefix
    have hc := valid_of_mem_consumedIn_openTail hvalid
    rw [hopen] at hheld hc
    have hlast : ((g.map charCommand).foldl DecUnit.after u).pos = 3 ↔ g.length + 1 = 4 := by
      obtain ⟨-, -, -, hpos, -⟩ := hheld
      bv_omega
    rw [List.map_append, List.foldl_append]
    refine (hheld.emitted_after_charCommand hc).trans ?_
    rw [ih (by omega) hprefix, if_neg (by omega), List.append_nil]
    simp only [hlast]

/-- Four characters of which none faults leave the decoder idle again (R128). -/
theorem DecUnit.idle_of_wholeChunk {u : DecUnit} (h : DecIdle u) {g : List Byte} (hg : g.length = 4)
    (hvalid : firstInvalid g = none) :
    DecIdle ((g.map charCommand).foldl DecUnit.after u) := by
  have hheld := DecUnit.holdsChunk_of_foldl h g hvalid
  have htail : openTail 4 g = [] := by rw [← List.length_eq_zero_iff, openTail_length, hg]
  rw [htail] at hheld
  obtain ⟨-, hacc, hcnt, hpos, hskip⟩ := hheld
  exact ⟨hacc, BitVec.eq_of_toNat_eq hcnt, BitVec.eq_of_toNat_eq hpos, hskip,
    DecUnit.showsFault_none_of_foldl h hvalid⟩

/-- An invalid consumed character stands behind valid ones, none of which is `=`. -/
theorem exists_eq_append_of_invalidIn {g : List Byte} {c : Byte} (h : invalidIn g = some c) :
    ∃ pre post, g = pre ++ c :: post ∧ c ≠ padChar ∧ (invRom c).valid = false ∧
      pre.contains padChar = false ∧ invalidIn pre = none := by
  obtain ⟨hc, pre, rest, hsplit, hpre⟩ := List.find?_eq_some_iff_append.mp h
  have hne : ∀ d ∈ pre ++ c :: rest, d ≠ padChar := fun d hd => by
    rw [← hsplit] at hd
    exact bne_iff_ne.mp (List.mem_takeWhile_imp (p := (· != padChar)) hd)
  have hpad : pre.contains padChar = false := by
    rw [List.contains_eq_mem, decide_eq_false_iff_not]
    exact fun hmem => hne _ (List.mem_append_left _ hmem) rfl
  refine ⟨pre, rest ++ g.dropWhile (· != padChar), ?_, hne c (by simp), by simpa using hc, hpad, ?_⟩
  · rw [← List.cons_append, ← List.append_assoc, ← hsplit]
    exact List.takeWhile_append_dropWhile.symm
  · rw [invalidIn, consumedIn_eq_self_iff.mpr hpad, List.find?_eq_none]
    exact fun d hd => by simpa using hpre d hd

/-- The invalid consumed character of a chunk faults before anything of the chunk is emitted. -/
theorem DecUnit.showsFault_of_invalidIn {u : DecUnit} (h : DecIdle u) {g : List Byte} (hg : g.length ≤ 4)
    {c : Byte} (hinvalid : invalidIn g = some c) :
    ((g.map charCommand).foldl DecUnit.after u).ShowsFault (some c) ∧
      ((g.map charCommand).foldl DecUnit.after u).emitted = u.emitted := by
  obtain ⟨pre, post, rfl, hne, hc, hpad, hpre⟩ := exists_eq_append_of_invalidIn hinvalid
  rw [List.length_append, List.length_cons] at hg
  have hvalid : firstInvalid pre = none := (firstInvalid_of_short (by omega)).trans hpre
  have hopen : openTail 4 pre = pre := openTail_of_short (by omega)
  have hemitted := DecUnit.emitted_of_chunk h (by omega) hvalid
  rw [if_neg (by omega), List.append_nil] at hemitted
  obtain ⟨hfault, -, -, -, hskip⟩ := DecUnit.holdsChunk_of_foldl h pre hvalid
  rw [hopen, hpad] at hskip
  rw [List.map_append, List.foldl_append, List.map_cons, List.foldl_cons, charCommand, if_neg hne,
    DecUnit.after_decChar_invalid hfault hskip hc, ← hemitted]
  exact DecUnit.ShowsFault.foldl_after ⟨rfl, rfl, rfl⟩ _

/-! ### The run of the decoder -/

/-- The run of a text from an idle decoder: the fault registers show its first invalid consumed character, and the
bytes emitted are those of the chunks before it (R152, R153, R175). -/
theorem DecUnit.run_of_idle (x : List Byte) {u : DecUnit} (h : DecIdle u) :
    ((decodeCommands x).foldl DecUnit.after u).ShowsFault (firstInvalid x) ∧
      ((decodeCommands x).foldl DecUnit.after u).emitted = u.emitted ++ decodeEmitted x := by
  induction x using pieces_induction (k := 4) (by decide) generalizing u with
  | short x hx =>
    have hfirst := firstInvalid_of_short hx.le
    rw [decodeCommands, List.foldl_append, List.foldl_cons, List.foldl_nil, hfirst]
    cases hinvalid : invalidIn x with
    | some c =>
      have hpos : x ≠ [] := by rintro rfl; cases hinvalid
      obtain ⟨hshows, hemitted⟩ := DecUnit.showsFault_of_invalidIn h hx.le hinvalid
      obtain ⟨hkeeps, hsame⟩ := hshows.foldl_after [.decEnd 0]
      rw [decodeEmitted_of_invalid (pieces_of_short hpos hx.le) hinvalid, List.append_nil]
      exact ⟨hkeeps, hsame.trans hemitted⟩
    | none =>
      have hvalid := hfirst.trans hinvalid
      have hopen : openTail 4 x = x := openTail_of_short hx
      have hemitted := DecUnit.emitted_of_chunk h hx.le hvalid
      obtain ⟨hfault, hacc, hcnt, -⟩ := DecUnit.holdsChunk_of_foldl h x hvalid
      rw [if_neg hx.ne, List.append_nil] at hemitted
      rw [decodeEmitted_of_short hx.le hinvalid, DecUnit.after_decEnd hfault, DecUnit.close_emitted, hemitted,
        hacc, hcnt, hopen]
      exact ⟨DecUnit.showsFault_none_of_foldl h hvalid, rfl⟩
  | whole g x hg ih =>
    rw [decodeCommands_append, List.foldl_append, firstInvalid_append hg]
    cases hinvalid : invalidIn g with
    | some c => 
      obtain ⟨hshows, hemitted⟩ := DecUnit.showsFault_of_invalidIn h hg.le hinvalid
      obtain ⟨hkeeps, hsame⟩ := hshows.foldl_after (decodeCommands x)
      rw [decodeEmitted_of_invalid (pieces_append (by decide) hg x) hinvalid, List.append_nil]
      exact ⟨hkeeps, hsame.trans hemitted⟩
    | none => 
      have hvalid := (firstInvalid_of_short hg.le).trans hinvalid
      obtain ⟨hshows, hemitted⟩ := ih (DecUnit.idle_of_wholeChunk h hg hvalid)
      rw [decodeEmitted_append hg hinvalid]
      refine ⟨hshows, hemitted.trans ?_⟩
      rw [DecUnit.emitted_of_chunk h hg.le hvalid, if_pos hg, List.append_assoc]

/-- END leaves a decoder that has not faulted idle (R126, R152). -/
theorem DecUnit.idle_of_run {u : DecUnit} (x : List Byte)
    (h : ((decodeCommands x).foldl DecUnit.after u).ShowsFault none) :
    DecIdle ((decodeCommands x).foldl DecUnit.after u) := by
  rw [decodeCommands, List.foldl_append, List.foldl_cons, List.foldl_nil] at h ⊢
  have ⟨hend, _⟩ := h
  rw [DecUnit.after_decEnd (DecUnit.fault_of_after hend)] at h ⊢
  exact ⟨rfl, rfl, rfl, rfl, h⟩

/-- R153. -/
theorem decodeText_eq_decodeClosed (x : List Byte) : decodeText x = some (decodeClosed x) := by
  obtain ⟨hshows, hemitted⟩ := DecUnit.run_of_idle x (u := DecUnit.reset) (by decide)
  rw [decodeText, execAll_eq]
  refine congrArg some ?_
  cases hfirst : firstInvalid x with
  | none =>
    rw [hfirst] at hshows
    obtain ⟨hfault, -⟩ := hshows
    rw [decodeClosed_of_valid hfirst, decodeResultOf_eq_bytes]
    exact ⟨hfault, hemitted⟩
  | some c =>
    rw [hfirst] at hshows
    obtain ⟨hfault, -, hfchar⟩ := hshows
    rw [decodeClosed_of_invalid hfirst, ← hfchar]
    exact if_pos hfault

/-- The closed form answers bytes exactly for the texts without an invalid consumed character. -/
theorem decodeClosed_eq_bytes {x b : List Byte} :
    decodeClosed x = .bytes b ↔ firstInvalid x = none ∧ decodeEmitted x = b := by
  cases hfirst : firstInvalid x with
  | none => simp [decodeClosed_of_valid hfirst]
  | some c => simp [decodeClosed_of_invalid hfirst]

theorem decodeClosed_eq_invalidCharacter {x : List Byte} {c : Byte} :
    decodeClosed x = .invalidCharacter c ↔ firstInvalid x = some c := by
  cases hfirst : firstInvalid x with
  | none => simp [decodeClosed_of_valid hfirst]
  | some d => simp [decodeClosed_of_invalid hfirst]

theorem decodeText_eq_bytes_iff {x b : List Byte} :
    decodeText x = some (.bytes b) ↔ firstInvalid x = none ∧ decodeEmitted x = b := by
  rw [decodeText_eq_decodeClosed, Option.some_inj, decodeClosed_eq_bytes]

/-- A run that does not fault appends the bytes of the text and ends idle (R152, R162). -/
theorem DecUnit.run_of_valid {u : DecUnit} (h : DecIdle u) {x : List Byte} (hx : firstInvalid x = none) :
    DecIdle ((decodeCommands x).foldl DecUnit.after u) ∧
      ((decodeCommands x).foldl DecUnit.after u).emitted = u.emitted ++ decodeEmitted x := by
  obtain ⟨hshows, hemitted⟩ := DecUnit.run_of_idle x h
  exact ⟨DecUnit.idle_of_run x (hx ▸ hshows), hemitted⟩

theorem decodeCommands_port {x : List Byte} {i : Instr} (h : i ∈ decodeCommands x) : i.port = .dec := by
  rw [decodeCommands, List.mem_append, List.mem_map, List.mem_singleton] at h
  obtain ⟨c, -, rfl⟩ | rfl := h
  · unfold charCommand
    split <;> rfl
  · rfl

theorem EncUnit.foldl_after_of_dec {l : List Instr} (h : ∀ i ∈ l, i.port = .dec) (u : EncUnit) :
    l.foldl EncUnit.after u = u := by
  have hnone : l.filter (·.port == .enc) = [] := List.filter_eq_nil_iff.mpr fun i hi => by simp [h i hi]
  rw [← EncUnit.foldl_after_filter, hnone, List.foldl_nil]

/-- Settles O47: a run is the fold of the decoder's step, and none of its commands is the encoder's. -/
theorem decodeRunClosedForm : Obligations.DecodeRunClosedForm := by
  refine ⟨decodeText_eq_decodeClosed, fun x s h =>
    ⟨_, execAll_eq _ s, EncUnit.foldl_after_of_dec (fun i => decodeCommands_port) s.enc, fun b hb => ?_,
      fun c hc => ?_⟩⟩
  · obtain ⟨hvalid, rfl⟩ := decodeClosed_eq_bytes.mp hb
    exact DecUnit.run_of_valid h hvalid
  · obtain ⟨hshows, hemitted⟩ := DecUnit.run_of_idle x h
    rw [decodeClosed_eq_invalidCharacter.mp hc] at hshows
    obtain ⟨hfault, hfcode, hfchar⟩ := hshows
    exact ⟨hfault, congrArg FCode.bits hfcode, hfchar, hemitted⟩

/-! ### Empty input and interleaved runs -/

/-- Settles O52: a lone END closes an empty group or chunk. -/
theorem emptyInputEmitsNothing : Obligations.EmptyInputEmitsNothing :=
  ⟨encodePayload_nil, decodeText_eq_bytes_iff.mpr ⟨rfl, rfl⟩,
    fun d s h => ⟨_, exec_of_enc rfl s, EncUnit.emitted_encEnd_of_idle h d⟩,
    fun d s h => ⟨_, exec_of_dec rfl s, DecUnit.emitted_decEnd_of_idle h d⟩⟩

/-- Settles O55: each unit's fold over the interleaving is the fold over its own commands, which is the run. -/
theorem runsDoNotInterfere : Obligations.RunsDoNotInterfere := by
  refine ⟨fun p l s t h hl hrun => ?_, fun x b l s t h hx hl hrun => ?_⟩
  · rw [execAll_eq, Host.Outcome.next.injEq] at hrun
    have henc : t.enc = (encodeCommands p).foldl EncUnit.after s.enc := by
      rw [← hrun, ← hl, EncUnit.foldl_after_filter]
      rfl
    rw [henc]
    exact ⟨s.enc.idle_of_run p, _, encodePayload_eq_encodeClosed p, EncUnit.emitted_of_run h p⟩
  · rw [execAll_eq, Host.Outcome.next.injEq] at hrun
    have hdec : t.dec = (decodeCommands x).foldl DecUnit.after s.dec := by
      rw [← hrun, ← hl, DecUnit.foldl_after_filter]
      rfl
    obtain ⟨hvalid, rfl⟩ := decodeText_eq_bytes_iff.mp hx
    rw [hdec]
    exact DecUnit.run_of_valid h hvalid

/-! ### The length of a decode -/

/-- A chunk of `q` consumed characters gives `q - 1` bytes (R127, R160). -/
theorem chunkBytes_length (x : List Byte) (k : Nat) :
    (chunkBytes x k).length = (consumedOf x k).length - 1 :=
  decChunk_length _ ((List.takeWhile_prefix _).length_le.trans (List.length_take_le _ _))

/-- The sum of R160 over the chunks of a text. -/
def decodedLengthOf (x : List Byte) : Nat :=
  ((pieces 4 x).map fun g => (consumedIn g).length - 1).sum

theorem decodedLengthOf_eq (x : List Byte) :
    decodedLengthOf x = ((chunkNumbers x).map fun k => (consumedOf x k).length - 1).sum := by
  rw [decodedLengthOf, pieces, List.map_map]
  rfl

theorem decodeEmitted_length {x : List Byte} (hx : firstInvalid x = none) :
    (decodeEmitted x).length = decodedLengthOf x := by
  rw [decodeEmitted_of_valid hx, List.length_flatMap, decodedLengthOf_eq]
  exact congrArg List.sum (List.map_congr_left fun k _ => chunkBytes_length x k)

theorem consumedIn_append_replicate {l : List Byte} (h : padChar ∉ l) (n : Nat) :
    consumedIn (l ++ List.replicate n padChar) = l := by
  have hself : l.contains padChar = false := by simpa using h
  have hpad : consumedIn (List.replicate n padChar) = [] := by cases n <;> rfl
  rw [consumedIn_append_of_not_contains hself, hpad, List.append_nil]

/-- A text of whole chunks with `=` only as its last `k` characters, `k` at most 2, gives three bytes for each
chunk but one fewer for each `=` (R160). -/
theorem decodedLengthOf_wellFormed {body : List Byte} {k : Nat} (hk : k ≤ 2) (hbody : padChar ∉ body)
    (hlen : (body.length + k) % 4 = 0) :
    decodedLengthOf (body ++ List.replicate k padChar) = 3 * (body.length + k) / 4 - k := by
  induction body using pieces_induction (k := 4) (by decide) with
  | short body hlt =>
    by_cases hpos : body = []
    · rw [hpos, List.length_nil, Nat.zero_add] at hlen
      obtain rfl : k = 0 := by omega
      rw [hpos]
      rfl
    · have hfull : body.length + k = 4 := by
        have := List.length_pos_iff.mpr hpos
        omega
      have hshort : (body ++ List.replicate k padChar).length ≤ 4 := by simp [hfull]
      rw [decodedLengthOf, pieces_of_short (by simp [hpos]) hshort, List.map_singleton, List.sum_singleton,
        consumedIn_append_replicate hbody]
      omega
  | whole g body hg ih =>
    rw [List.mem_append, not_or] at hbody
    obtain ⟨hpad, hrest⟩ := hbody
    rw [List.length_append] at hlen ⊢
    have hself : consumedIn g = g := consumedIn_eq_self_iff.mpr (by simpa using hpad)
    rw [List.append_assoc, decodedLengthOf, pieces_append (by decide) hg, List.map_cons, List.sum_cons,
      ← decodedLengthOf, ih hrest (by omega), hself]
    omega

/-- Settles O53: a decode is the bytes of the chunks, of which each has one fewer than consumed characters. -/
theorem decodedLength : Obligations.DecodedLength := by
  refine ⟨fun x b hb => ?_, fun body b k hk hbody hlen hb => ?_⟩
  · obtain ⟨hvalid, rfl⟩ := decodeText_eq_bytes_iff.mp hb
    rw [decodeEmitted_length hvalid, decodedLengthOf_eq]
  · obtain ⟨hvalid, rfl⟩ := decodeText_eq_bytes_iff.mp hb
    rw [decodeEmitted_length hvalid]
    exact decodedLengthOf_wellFormed hk hbody hlen

end Sys2Proof.Machine
end

section
/-! PROOFS. The round trip (42_payload_functions.md R158, R161): the four fields of a group, concatenated, are the
left-justified group again, so the bytes cut from them are the group's. -/

namespace Sys2Proof.Machine

/-! ### The bytes and the fields of a left-justified group -/

theorem concatBytes_singleton (b0 : Byte) : concatBytes [b0] = b0.setWidth 24 :=
  (concatBytes_append_singleton [] b0).trans (shiftInByte_zero b0)

theorem concatBytes_pair (b0 b1 : Byte) : concatBytes [b0, b1] = (b0 ++ b1).setWidth 24 := by
  rw [← shiftInByte_setWidth, ← concatBytes_singleton]
  exact concatBytes_append_singleton [b0] b1

theorem concatBytes_triple (b0 b1 b2 : Byte) : concatBytes [b0, b1, b2] = b0 ++ b1 ++ b2 :=
  calc concatBytes [b0, b1, b2]
      = shiftInByte (concatBytes [b0, b1]) b2 := concatBytes_append_singleton [b0, b1] b2
    _ = (b0 ++ b1 ++ b2).setWidth 24 := by rw [concatBytes_pair, shiftInByte_setWidth]
    _ = b0 ++ b1 ++ b2 := BitVec.setWidth_eq _

theorem byteAt_bytes_zero (b0 b1 b2 : Byte) : byteAt (b0 ++ b1 ++ b2) 0 = b0 :=
  calc byteAt (b0 ++ b1 ++ b2) 0
      = (b0 ++ b1 ++ b2).extractLsb' 16 8 := byteAt_eq_extractLsb' _ _
    _ = (b0 ++ b1).extractLsb' 8 8 := BitVec.extractLsb'_append_eq_of_le (by decide)
    _ = b0.extractLsb' 0 8 := BitVec.extractLsb'_append_eq_of_le (by decide)
    _ = b0 := BitVec.extractLsb'_eq_self

theorem byteAt_bytes_one (b0 b1 b2 : Byte) : byteAt (b0 ++ b1 ++ b2) 1 = b1 :=
  calc byteAt (b0 ++ b1 ++ b2) 1
      = (b0 ++ b1 ++ b2).extractLsb' 8 8 := byteAt_eq_extractLsb' _ _
    _ = (b0 ++ b1).extractLsb' 0 8 := BitVec.extractLsb'_append_eq_of_le (by decide)
    _ = b1.extractLsb' 0 8 := BitVec.extractLsb'_append_eq_of_add_le (by decide)
    _ = b1 := BitVec.extractLsb'_eq_self

theorem byteAt_bytes_two (b0 b1 b2 : Byte) : byteAt (b0 ++ b1 ++ b2) 2 = b2 :=
  calc byteAt (b0 ++ b1 ++ b2) 2
      = (b0 ++ b1 ++ b2).extractLsb' 0 8 := byteAt_eq_extractLsb' _ _
    _ = b2.extractLsb' 0 8 := BitVec.extractLsb'_append_eq_of_add_le (by decide)
    _ = b2 := BitVec.extractLsb'_eq_self

/-- The four fields side by side are the value they are cut from (R89). -/
theorem fieldAt_append_fields (v : Acc) : fieldAt v 0 ++ fieldAt v 1 ++ fieldAt v 2 ++ fieldAt v 3 = v :=
  calc fieldAt v 0 ++ fieldAt v 1 ++ fieldAt v 2 ++ fieldAt v 3
      = v.extractLsb' 18 6 ++ v.extractLsb' 12 6 ++ v.extractLsb' 6 6 ++ v.extractLsb' 0 6 := by
        simp only [fieldAt_eq_extractLsb']
    _ = v.extractLsb' 12 (6 + 6) ++ v.extractLsb' 6 6 ++ v.extractLsb' 0 6 := by
        rw [← BitVec.extractLsb'_append_extractLsb'_eq_extractLsb' (start₁ := 12) (len₁ := 6) (len₂ := 6) rfl]
    _ = v.extractLsb' 6 (6 + 6 + 6) ++ v.extractLsb' 0 6 := by
        rw [← BitVec.extractLsb'_append_extractLsb'_eq_extractLsb' (start₁ := 6) (len₁ := 6)
          (len₂ := 6 + 6) rfl]
    _ = v.extractLsb' 0 (6 + 6 + 6 + 6) := BitVec.extractLsb'_append_extractLsb'_eq_extractLsb' rfl
    _ = v := BitVec.extractLsb'_eq_self

/-! ### Concatenated sextets -/

/-- A sextet shifted in stands behind the bits held before it; those beyond the 24 are lost. -/
theorem shiftInSextet_setWidth {k : Nat} (x : BitVec k) (i : Sextet) :
    shiftInSextet (x.setWidth 24) i = (x ++ i).setWidth 24 :=
  BitVec.setWidth_append_eq_shiftLeft_setWidth_or.symm

theorem concatSextets_singleton (i0 : Sextet) : concatSextets [i0] = i0.setWidth 24 := by
  rw [← List.nil_append [i0], concatSextets_append_singleton]
  simp [concatSextets, shiftInSextet]

theorem concatSextets_pair (i0 i1 : Sextet) : concatSextets [i0, i1] = (i0 ++ i1).setWidth 24 := by
  rw [← shiftInSextet_setWidth, ← concatSextets_singleton]
  exact concatSextets_append_singleton [i0] i1

theorem concatSextets_triple (i0 i1 i2 : Sextet) :
    concatSextets [i0, i1, i2] = (i0 ++ i1 ++ i2).setWidth 24 := by
  rw [← shiftInSextet_setWidth, ← concatSextets_pair]
  exact concatSextets_append_singleton [i0, i1] i2

theorem concatSextets_quadruple (i0 i1 i2 i3 : Sextet) :
    concatSextets [i0, i1, i2, i3] = i0 ++ i1 ++ i2 ++ i3 :=
  calc concatSextets [i0, i1, i2, i3]
      = shiftInSextet (concatSextets [i0, i1, i2]) i3 := concatSextets_append_singleton [i0, i1, i2] i3
    _ = (i0 ++ i1 ++ i2 ++ i3).setWidth 24 := by rw [concatSextets_triple, shiftInSextet_setWidth]
    _ = i0 ++ i1 ++ i2 ++ i3 := BitVec.setWidth_eq _

/-! ### A group decodes to its bytes -/

theorem groupSextets_single (b0 : Byte) :
    groupSextets [b0] = [fieldAt (b0 ++ 0#8 ++ 0#8) 0, fieldAt (b0 ++ 0#8 ++ 0#8) 1] := by
  rw [groupSextets, concatBytes_singleton, ← justifyBytes_one]
  rfl

theorem groupSextets_pair (b0 b1 : Byte) :
    groupSextets [b0, b1] =
      [fieldAt (b0 ++ b1 ++ 0#8) 0, fieldAt (b0 ++ b1 ++ 0#8) 1, fieldAt (b0 ++ b1 ++ 0#8) 2] := by
  rw [groupSextets, concatBytes_pair, ← justifyBytes_two]
  rfl

theorem groupSextets_triple (b0 b1 b2 : Byte) :
    groupSextets [b0, b1, b2] =
      [fieldAt (b0 ++ b1 ++ b2) 0, fieldAt (b0 ++ b1 ++ b2) 1, fieldAt (b0 ++ b1 ++ b2) 2,
        fieldAt (b0 ++ b1 ++ b2) 3] := by
  have hlen : [b0, b1, b2].length = 3 := rfl
  rw [groupSextets, concatBytes_triple, hlen, justifyBytes_three]
  rfl

theorem decChunk_fields_four (v : Acc) :
    decChunk (concatSextets [fieldAt v 0, fieldAt v 1, fieldAt v 2, fieldAt v 3]) 4 =
      [byteAt v 0, byteAt v 1, byteAt v 2] := by
  rw [concatSextets_quadruple, fieldAt_append_fields, decChunk_four]

theorem decChunk_fields_three {v : Acc} (h3 : fieldAt v 3 = 0) :
    decChunk (concatSextets [fieldAt v 0, fieldAt v 1, fieldAt v 2]) 3 = [byteAt v 0, byteAt v 1] := by
  have hv : fieldAt v 0 ++ fieldAt v 1 ++ fieldAt v 2 ++ 0#6 = v := by
    conv_rhs => rw [← fieldAt_append_fields v, h3]
    rfl
  rw [concatSextets_triple, decChunk_three, justifySextets_three, hv]

theorem decChunk_fields_two {v : Acc} (h2 : fieldAt v 2 = 0) (h3 : fieldAt v 3 = 0) :
    decChunk (concatSextets [fieldAt v 0, fieldAt v 1]) 2 = [byteAt v 0] := by
  have hv : fieldAt v 0 ++ fieldAt v 1 ++ 0#6 ++ 0#6 = v := by
    conv_rhs => rw [← fieldAt_append_fields v, h2, h3]
    rfl
  rw [concatSextets_pair, decChunk_two, justifySextets_two, hv]

theorem decChunk_groupSextets {g : List Byte} (hpos : g ≠ []) (hg : g.length ≤ 3) :
    decChunk (concatSextets (groupSextets g)) (g.length + 1) = g := by
  obtain ⟨-, hpair, hsingle⟩ := encGroupByBytes
  match g with
  | [b0] =>
    obtain ⟨-, h2, h3⟩ := hsingle b0
    rw [groupSextets_single, ← justifyBytes_one]
    refine (decChunk_fields_two h2 h3).trans ?_
    rw [justifyBytes_one, byteAt_bytes_zero]
  | [b0, b1] =>
    obtain ⟨-, h3⟩ := hpair b0 b1
    rw [groupSextets_pair, ← justifyBytes_two]
    refine (decChunk_fields_three h3).trans ?_
    rw [justifyBytes_two, byteAt_bytes_zero, byteAt_bytes_one]
  | [b0, b1, b2] =>
    have hlen : [b0, b1, b2].length + 1 = 4 := rfl
    rw [groupSextets_triple, hlen, decChunk_fields_four, byteAt_bytes_zero, byteAt_bytes_one, byteAt_bytes_two]
  | [] => exact absurd rfl hpos
  | _ :: _ :: _ :: _ :: l => exact absurd hg (Nat.not_le.mpr (by simp))

theorem consumedIn_groupText {g : List Byte} (hpos : g ≠ []) (hg : g.length ≤ 3) :
    consumedIn (groupText g) = (groupSextets g).map alphabet := by
  rw [groupText_eq_append hpos hg, consumedIn_append_replicate (padChar_not_mem_map_alphabet _)]

/-- The inverse ROM gives back the sextets of alphabet codes (R55). -/
theorem concatIndices_map_alphabet (l : List Sextet) : concatIndices (l.map alphabet) = concatSextets l := by
  have hid : (fun c => (invRom c).idx) ∘ alphabet = id := funext fun i => by simp [invRom_alphabet]
  rw [concatIndices, List.map_map, hid, List.map_id]

theorem invalidIn_groupText {g : List Byte} (hpos : g ≠ []) (hg : g.length ≤ 3) :
    invalidIn (groupText g) = none := by
  rw [invalidIn, consumedIn_groupText hpos hg, List.find?_eq_none]
  intro c hc
  obtain ⟨i, -, rfl⟩ := List.mem_map.mp hc
  simp [invRom_alphabet_valid]

theorem chunkOutput_groupText {g : List Byte} (hpos : g ≠ []) (hg : g.length ≤ 3) :
    chunkOutput (groupText g) = g := by
  have hlen : (groupSextets g).length = g.length + 1 := by
    rw [groupSextets, List.length_map, List.length_range]
  rw [chunkOutput, consumedIn_groupText hpos hg, concatIndices_map_alphabet, List.length_map, hlen,
    decChunk_groupSextets hpos hg]

theorem decodeText_groupText {g : List Byte} (hpos : g ≠ []) (hg : g.length ≤ 3) :
    decodeText (groupText g) = some (.bytes g) := by
  have hlen := (groupText_length g).le
  have hvalid := invalidIn_groupText hpos hg
  rw [decodeText_eq_bytes_iff, firstInvalid_of_short hlen, decodeEmitted_of_short hlen hvalid]
  exact ⟨hvalid, chunkOutput_groupText hpos hg⟩

/-- The round trip group by group: a group's text is a whole chunk (R7, R158). -/
theorem decodeText_encodeClosed (p : List Byte) : decodeText (encodeClosed p) = some (.bytes p) := by
  induction p using pieces_induction (k := 3) (by decide) with
  | short p hp =>
    by_cases hpos : p = []
    · rw [hpos]; rfl
    · rw [encodeClosed_of_short hpos hp.le, decodeText_groupText hpos hp.le]
  | whole g p hg ih =>
    rw [encodeClosed_append hg]
    have hpos : g ≠ [] := List.ne_nil_of_length_pos (by omega)
    exact decodeText_append (by rw [groupText_length]) (decodeText_groupText hpos hg.le) ih

/-- Settles O48. -/
theorem roundTripOfPayloads : Obligations.RoundTripOfPayloads := fun p =>
  ⟨_, encodePayload_eq_encodeClosed p, decodeText_encodeClosed p⟩

theorem reencodeText_of_decodeText {x b : List Byte} (h : decodeText x = some (.bytes b)) :
    reencodeText x = encodePayload b := by
  rw [reencodeText, h]

/-- Settles O54: by the round trip an encoder output decodes to its payload; the three texts are run. -/
theorem reencodingAnEncoderOutput : Obligations.ReencodingAnEncoderOutput := by
  have hM : encodePayload [0x4D] = some [0x54, 0x51, 0x3D, 0x3D] := by decide
  have hTR : decodeText [0x54, 0x52, 0x3D, 0x3D] = some (.bytes [0x4D]) := by decide
  have hTQ : decodeText [0x54, 0x51] = some (.bytes [0x4D]) := by decide
  have hTQu : decodeText [0x54, 0x51, 0x3D, 0x75] = some (.bytes [0x4D]) := by decide
  refine ⟨fun p x hx => ?_, ⟨hTR, ?_⟩, ⟨hTQ, ?_⟩, ⟨hTQu, ?_⟩, hM⟩
  · have hdecode : decodeText x = some (.bytes p) := by
      rw [encodePayload_eq_encodeClosed, Option.some_inj] at hx
      rw [← hx, decodeText_encodeClosed]
    exact ⟨(reencodeText_of_decodeText hdecode).trans hx, p, hdecode, hx⟩
  · exact (reencodeText_of_decodeText hTR).trans hM
  · exact (reencodeText_of_decodeText hTQ).trans hM
  · exact (reencodeText_of_decodeText hTQu).trans hM

end Sys2Proof.Machine
end

section
/-! PROOFS. Entering and leaving the faulted state (60_exceptions.md R171, R177), and the idle cycle (R186). -/

namespace Sys2Proof.Machine

/-- A decoder that comes to be faulted has just taken the fault of a `DEC.CHAR` (R171). -/
theorem DecUnit.takesFault_of_after {u : DecUnit} {i : Instr} (hu : u.fault = false)
    (h : (u.after i).fault = true) :
    ∃ c, i = .decChar c ∧ u.skip = false ∧ (invRom c).valid = false ∧
      u.after i = u.quiet.recordFault .invalidCharacter c := by
  have hnew : (u.after i).fault ≠ u.fault := by simp [h, hu]
  cases hport : i.port with
  | enc => exact absurd (congrArg DecUnit.fault (u.after_of_enc hport)) hnew
  | dec =>
    obtain ⟨-, ⟨hkept, -⟩ | ⟨c, hi, hv, hs, -, heq⟩⟩ := u.after_frame hport
    · exact absurd hkept hnew
    · exact ⟨c, hi, hs, hv, heq⟩

/-- Settles O27: by the frame of the decoder's step only the invalid case of `DEC.CHAR` changes the fault fields,
and it records its own character. -/
theorem faultRaisedExactlyWhen : Obligations.FaultRaisedExactlyWhen := by
  intro i s t hf h
  obtain rfl := eq_of_exec_eq_next h
  rw [State.withDec_dec]
  refine ⟨⟨fun ht => ?_, ?_⟩, fun ht => ?_⟩
  · obtain ⟨c, hi, hs, hv, -⟩ := DecUnit.takesFault_of_after hf ht
    exact ⟨c, hi, hs, hv⟩
  · rintro ⟨c, rfl, hs, hv⟩
    rw [DecUnit.after_decChar_invalid hf hs hv, DecUnit.recordFault_fault]
  · obtain ⟨c, hi, -, -, heq⟩ := DecUnit.takesFault_of_after hf ht
    rw [heq]
    exact ⟨hi, rfl⟩

/-- Settles O29: without reset the decoder's cycle is a quiet one (O28), and before the first reset nothing but the
driver moves; a reset cycle gives the decoder its reset values. -/
theorem faultLeftOnlyByReset : Obligations.FaultLeftOnlyByReset := by
  refine ⟨fun s t hf hrst h => ?_, fun s hrst => ⟨_, step_in_reset hrst, ?_, rfl⟩⟩
  · obtain ⟨hyes, -⟩ | ⟨-, hreset, -⟩ | ⟨-, -, rfl⟩ := cycle_next h
    · simp [hrst] at hyes
    · obtain ⟨-, -, hquiet⟩ := decoderHaltedWhileFaulted
      rw [hquiet s t hreset hf hrst h]
      exact ⟨hf, rfl, rfl⟩
    · exact ⟨hf, rfl, rfl⟩
  · rw [applyReset_dec]
    decide

/-- Settles O37: each unit's part of the cycle is quiet. -/
theorem idleCycleKeepsEverything : Obligations.IdleCycleKeepsEverything := by
  intro s hreset hrst henc hdec
  rw [step_outside_reset hreset hrst, encCycle_quiet henc, andThen_next, decCycle_quiet (.inl hdec)]
  rfl

end Sys2Proof.Machine
end

section
/-! PROOFS. A cycle in reset (70_reset_and_hazards.md R190 to R192), a command before the first reset (R193), and
any list of cycles outside reset against the commands presented in it (R201). -/

namespace Sys2Proof.Machine

/-! ### Reset -/

/-- Settles O31: a reset cycle accepts nothing and answers `applyReset`, whatever is presented. -/
theorem resetCycleFromAnyState : Obligations.ResetCycleFromAnyState := by
  intro s hrst
  refine ⟨by simp [encCmdReady, hrst], by simp [decCmdReady, hrst], _, step_in_reset hrst, rfl, ?_⟩
  rw [applyReset_enc, applyReset_dec]
  decide

/-- Settles O38: outside reset, before the first one, a cycle goes on only if neither port presents a command. -/
theorem noMeaningBeforeReset : Obligations.NoMeaningBeforeReset := by
  intro s hreset hrst hvalid
  have hpresented : ((nextPins s).encCmdValid || (nextPins s).decCmdValid) = true := by simpa using hvalid
  simp [step, cycle, hrst, hreset, hpresented]

/-! ### The commands of one cycle -/

theorem encCommandsOf_cons (p : PinsIn) (ps : List PinsIn) :
    encCommandsOf (p :: ps) = encCommandsOf [p] ++ encCommandsOf ps := by
  simp only [encCommandsOf, ← List.map_append, ← List.filter_append, List.singleton_append]

theorem decCommandsOf_cons (p : PinsIn) (ps : List PinsIn) :
    decCommandsOf (p :: ps) = decCommandsOf [p] ++ decCommandsOf ps := by
  simp only [decCommandsOf, ← List.map_append, ← List.filter_append, List.singleton_append]

/-- The encoder's part of a cycle runs what the cycle presents on `enc_cmd`, but for the output word of a cycle
that presents nothing. -/
theorem encCycle_runs_encCommandsOf {p : PinsIn} (hrst : p.rst = false) (s : State) :
    ∃ u, encCycle p s = .next (s.withEnc u) ∧
      u.quiet = ((encCommandsOf [p]).foldl EncUnit.after s.enc).quiet := by
  cases hvalid : p.encCmdValid with
  | true =>
    refine ⟨s.enc.after (decode .enc p.encCmd), ?_, by simp [encCommandsOf, hvalid]⟩
    rw [encCycle_accepts hrst hvalid, exec_of_enc (decode_port _ _)]
  | false =>
    exact ⟨s.enc.quiet, encCycle_quiet hvalid s, by simp [encCommandsOf, hvalid, EncUnit.quiet]⟩

/-- The decoder's part of a cycle runs what the cycle presents on `dec_cmd`, accepted or not (R133), but for the
output word of a cycle that presents nothing. -/
theorem decCycle_runs_decCommandsOf {p : PinsIn} (hrst : p.rst = false) (s : State) :
    ∃ u, decCycle p s = .next (s.withDec u) ∧
      u.quiet = ((decCommandsOf [p]).foldl DecUnit.after s.dec).quiet := by
  cases hvalid : p.decCmdValid with
  | true =>
    refine ⟨s.dec.after (decode .dec p.decCmd), ?_, by simp [decCommandsOf, hvalid]⟩
    rw [decCycle_runs hrst hvalid, exec_of_dec (decode_port _ _)]
  | false =>
    exact ⟨s.dec.quiet, decCycle_quiet (.inl hvalid), by simp [decCommandsOf, hvalid, DecUnit.quiet]⟩

/-! ### The commands of a list of cycles -/

/-- `t` is where the commands presented in the cycles `ps` take `s`, but for the output words of the last cycle,
when the driver goes on with `rest`. -/
structure RanCycles (ps rest : List PinsIn) (s t : State) : Prop where
  enc : t.enc.quiet = ((encCommandsOf ps).foldl EncUnit.after s.enc).quiet
  dec : t.dec.quiet = ((decCommandsOf ps).foldl DecUnit.after s.dec).quiet
  wasReset : t.wasReset = s.wasReset
  input : t.input = rest

/-- One cycle outside reset runs the commands it presents. -/
theorem step_ranCycles {s : State} {p : PinsIn} {rest : List PinsIn} (hreset : s.wasReset = true)
    (hinput : s.input = p :: rest) (hrst : p.rst = false) :
    ∃ t, step s = .next t ∧ RanCycles [p] rest s t := by
  obtain ⟨u, hu, henc⟩ := encCycle_runs_encCommandsOf hrst { s with input := rest }
  obtain ⟨v, hv, hdec⟩ := decCycle_runs_decCommandsOf hrst (State.withEnc { s with input := rest } u)
  have hstep : step s = .next ((State.withEnc { s with input := rest } u).withDec v) := by
    rw [step_of_input hreset hinput hrst, hu, andThen_next, hv]
  exact ⟨_, hstep, henc, hdec, rfl, rfl⟩

/-- Cycles follow one another: no step reads the output words in which the states between may differ. -/
theorem RanCycles.cons {p : PinsIn} {ps mid rest : List PinsIn} {s r t : State} (h : RanCycles [p] mid s r)
    (h' : RanCycles ps rest r t) : RanCycles (p :: ps) rest s t where
  enc := by rw [h'.enc, encCommandsOf_cons, List.foldl_append, EncUnit.foldl_after_quiet _ h.enc]
  dec := by rw [h'.dec, decCommandsOf_cons, List.foldl_append, DecUnit.foldl_after_quiet _ h.dec]
  wasReset := h'.wasReset.trans h.wasReset
  input := h'.input

theorem run_succ_of_step {s t : State} (h : step s = .next t) (k : Nat) :
    Host.Core.run core (k + 1) s = Host.Core.run core k t := by
  have hcore : core.step s = .next t := h
  simp only [Host.Core.run, hcore]

/-- Any list of cycles outside reset, with gaps and both ports busy alike, runs the commands presented in it. -/
theorem run_ranCycles (ps : List PinsIn) {rest : List PinsIn} {s : State} (hreset : s.wasReset = true)
    (hinput : s.input = ps ++ rest) (hrst : ∀ p ∈ ps, p.rst = false) :
    ∃ t, Host.Core.run core ps.length s = .next t ∧ RanCycles ps rest s t := by
  induction ps generalizing s with
  | nil => exact ⟨s, rfl, rfl, rfl, rfl, hinput⟩
  | cons p ps ih =>
    rw [List.forall_mem_cons] at hrst
    obtain ⟨hp, hps⟩ := hrst
    obtain ⟨r, hstep, hr⟩ := step_ranCycles hreset hinput hp
    obtain ⟨t, hrun, ht⟩ := ih (hr.wasReset.trans hreset) hr.input hps
    exact ⟨t, (run_succ_of_step hstep _).trans hrun, hr.cons ht⟩

/-- Settles O44: by `run_ranCycles` the cycles take each unit where its own commands do, and by `execAll_eq` so
does the run of them. -/
theorem cyclesRunTheCommandsPresented : Obligations.CyclesRunTheCommandsPresented := by
  intro ps rest s hreset hinput hrst
  obtain ⟨t, hrun, ht⟩ := run_ranCycles ps hreset hinput hrst
  exact ⟨t, _, _, hrun, execAll_eq _ s, execAll_eq _ s, ht.enc, ht.dec, ht.input⟩

end Sys2Proof.Machine
end

section
/-! PROOFS. The sample command words (95_test_vectors.md section 2.8), read back as encodings. -/

namespace Sys2Proof

/-- Settles O8: each word is the encoding of the command printed beside it, which decodes back (O9). -/
theorem sampleCommandWords : Obligations.SampleCommandWords :=
  ⟨decodeOfEncode (.encByte 0x3D) rfl, decodeOfEncode (.encEnd 0x3D) rfl,
    decodeOfEncode .decPad rfl, decodeOfEncode (.decChar 0x3E) rfl,
    decodeOfEncode (.decChar 0x54) rfl, decodeOfEncode (.decEnd 0x3D) rfl⟩

end Sys2Proof
end
